-- ==== Sys2Proof/Word.lean ====
section
/-! DEFINITION. The word type and the bit-count arithmetic of 00_scope.md (R12, R14, R15). -/

namespace Sys2Proof

/-- One 8-bit cell of the weight table (R11, R40). -/
abbrev Byte := BitVec 8

/-- R12: the number of bits in the binary form of `x`. -/
def bitlen (x : Nat) : Nat := if x = 0 then 0 else Nat.log2 x + 1

/-- R14: the width of a register that holds an index in `[0, n)`, with `clog2(1) = 0`. -/
def clog2 (n : Nat) : Nat := if n ≤ 1 then 0 else Nat.log2 (n - 1) + 1

/-- R15: `mask(k) = 2^k - 1`. -/
def mask (k : Nat) : Nat := 2 ^ k - 1

end Sys2Proof
end

