-- ==== Sys2Proof/Config.lean ====
section
/-! DEFINITION. The construction-time configuration of the block (00_scope.md R6 to R14) and what is derived from it.
It is fixed for the lifetime of an instance: no step changes it (R34, R37). -/

namespace Sys2Proof

/-- R6 to R10, R140: the four parameters, with the proofs that make them an instance of the block.
The source gives no upper bound (R9). -/
structure Config where
  /-- R6: address-context buckets. -/
  N : Nat
  /-- R7: history-row buckets. -/
  M : Nat
  /-- R8: history length, i.e. CHB capacity, GHR width and number of history lanes. -/
  H : Nat
  /-- R10: `ADDR_W`, the width of a branch address, of a target and of a CHB entry. -/
  addrW : Nat
  N_pos : 1 ≤ N
  M_pos : 1 ≤ M
  H_pos : 1 ≤ H
  addrW_pos : 1 ≤ addrW
deriving DecidableEq, Repr

namespace Config

/-- R140: the block is built from four integers, and a non-positive one is rejected when it is built. -/
def build? (n m h w : Int) : Option Config :=
  if ok : 1 ≤ n ∧ 1 ≤ m ∧ 1 ≤ h ∧ 1 ≤ w then
    some { N := n.toNat, M := m.toNat, H := h.toNat, addrW := w.toNat
           N_pos := by omega, M_pos := by omega, H_pos := by omega, addrW_pos := by omega }
  else none

/-- DESIGN CHOICE (log 1): the configuration of `State.reset`, the one most vectors of 95_test_vectors.md use
(N = 4, M = 8, H = 4), with the default `ADDR_W = 64` of R10. -/
def reference : Config :=
  { N := 4, M := 8, H := 4, addrW := 64
    N_pos := by decide, M_pos := by decide, H_pos := by decide, addrW_pos := by decide }

/-- R12: `SCORE_W = bitlen(127·(H+1)) + 1`. -/
def scoreW (c : Config) : Nat := bitlen (127 * (c.H + 1)) + 1

/-- R55: `REQ_W = ADDR_W + 3`. -/
def reqW (c : Config) : Nat := c.addrW + 3

/-- R63: `RESP_W = ADDR_W + SCORE_W + 6`. -/
def respW (c : Config) : Nat := c.addrW + c.scoreW + 6

/-- R32: the number of cells of the weight table. -/
def cells (c : Config) : Nat := c.N * c.M * (c.H + 1)

/-- R14: the widths of hardware registers that hold a context, a row, a lane, a history position and an occupancy. -/
def contextW (c : Config) : Nat := clog2 c.N
def rowW (c : Config) : Nat := clog2 c.M
def laneW (c : Config) : Nat := clog2 (c.H + 1)
def positionW (c : Config) : Nat := clog2 c.H
def occupancyW (c : Config) : Nat := clog2 (c.H + 1)

end Config

end Sys2Proof
end

