-- ==== Sys2Proof/Syntax.lean ====
section
/-! DEFINITION. The commands of the block: one constructor per row of spec/opcode_table.json (30_encoding.md R55 to R62). -/

namespace Sys2Proof

/-- A decoded request. A request carries a flag `F` and an address `A` under every opcode (R57, R58); under the two
reserved opcodes they are ignored (R60) and kept here only so that a decoded request is the whole word. -/
inductive Instr where
  /-- R109: `OP = 01`, `F = isConditional`, `A` the branch address. -/
  | predict (isConditional : Bool) (address : Nat)
  /-- R116: `OP = 10`, `F = actualTaken`, `A = actualTarget`. -/
  | update (actualTaken : Bool) (actualTarget : Nat)
  /-- R60: `OP = 00`, reserved. -/
  | reservedOp00 (f : Bool) (a : Nat)
  /-- R60: `OP = 11`, reserved. -/
  | reservedOp11 (f : Bool) (a : Nat)
deriving DecidableEq, Repr

namespace Instr

/-- The value of field `F` (R57). -/
def flag : Instr → Bool
  | .predict c _ => c
  | .update t _ => t
  | .reservedOp00 f _ => f
  | .reservedOp11 f _ => f

/-- The value of field `A` (R58). -/
def addr : Instr → Nat
  | .predict _ a => a
  | .update _ a => a
  | .reservedOp00 _ a => a
  | .reservedOp11 _ a => a

end Instr

end Sys2Proof
end

