-- ==== Sys2Proof/WellFormed.lean ====
section
/-! DEFINITION. Which commands the encoding can carry: `A` is an unsigned integer below `2^ADDR_W` (R10, R58). Every
value of `F` and every such `A` is legal under both opcodes (R59). -/

namespace Sys2Proof

/-- R58: the `A` operand fits the ADDR_W bits of its field. -/
def Instr.wf (cfg : Config) (i : Instr) : Bool := decide (i.addr < 2 ^ cfg.addrW)

end Sys2Proof
end

