-- ==== Sys2Proof/Decode.lean ====
section
/-! DEFINITION. Request decoding and encoding (30_encoding.md R55 to R62, R67, R68), and the little-endian byte transport of
R45, for request and response words alike. -/

namespace Sys2Proof

/-- R56: `OP = REQ[1:0]`. -/
def requestOp (cfg : Config) (w : BitVec cfg.reqW) : BitVec 2 := w.extractLsb' 0 2

/-- R57: `F = REQ[2]`. -/
def requestF (cfg : Config) (w : BitVec cfg.reqW) : Bool := w.getLsbD 2

/-- R58, R61, R62: `A = REQ[ADDR_W+2:3]`, zero-extended: no field is sign-extended, scaled or shifted. -/
def requestA (cfg : Config) (w : BitVec cfg.reqW) : Nat := (w.extractLsb' 3 cfg.addrW).toNat

/-- R59, R60, R68: the decoder reads `OP` first, then `F` and `A`. It is total: every REQ_W-bit word is one command. -/
def decode (cfg : Config) (w : BitVec cfg.reqW) : Instr :=
  if requestOp cfg w = 1#2 then .predict (requestF cfg w) (requestA cfg w)
  else if requestOp cfg w = 2#2 then .update (requestF cfg w) (requestA cfg w)
  else if requestOp cfg w = 0#2 then .reservedOp00 (requestF cfg w) (requestA cfg w)
  else .reservedOp11 (requestF cfg w) (requestA cfg w)

/-- R59, R60: the opcode of each command. -/
def Instr.opcode : Instr → BitVec 2
  | .predict _ _ => 1#2
  | .update _ _ => 2#2
  | .reservedOp00 _ _ => 0#2
  | .reservedOp11 _ _ => 3#2

/-- R55 to R58: the request word is `{A, F, OP}`. -/
def encode (cfg : Config) (i : Instr) : BitVec cfg.reqW :=
  BitVec.ofNat cfg.addrW i.addr ++ BitVec.ofBool i.flag ++ i.opcode

/-- Why a number or a byte string is not a request or a response word. The ports themselves have REQ_W and RESP_W wires, so no word
on them is rejected: these are rejections of the transport outside the block (R45) and of a raw `.word` value (R73). -/
inductive DecodeError where
  /-- The value has a bit at or above the word's width (R55, R63). -/
  | wordTooWide
  /-- The byte string is not the bytes that carry one word. -/
  | wrongByteCount
deriving DecidableEq, Repr

/-- A request given as a number: accepted exactly when it fits REQ_W bits. -/
def decodeWord (cfg : Config) (w : Nat) : Except DecodeError Instr :=
  if w < 2 ^ cfg.reqW then .ok (decode cfg (BitVec.ofNat cfg.reqW w)) else .error .wordTooWide

/-- R45: byte 0 holds bits `[7:0]`. -/
def bytesToNat : List Byte → Nat
  | [] => 0
  | b :: bs => b.toNat + 256 * bytesToNat bs

/-- R45: the first `n` bytes of `w`, byte 0 first. -/
def natToBytes : Nat → Nat → List Byte
  | 0, _ => []
  | n + 1, w => BitVec.ofNat 8 w :: natToBytes n (w / 256)

/-- The number of bytes that carry one word of `n` bits. -/
def wordBytes (n : Nat) : Nat := (n + 7) / 8

/-- R45: the bytes that carry a word, request or response. -/
def wordToBytes {n : Nat} (v : BitVec n) : List Byte := natToBytes (wordBytes n) v.toNat

/-- R45: a word of `n` bits carried as bytes. DESIGN CHOICE (log 5): exactly the bytes that hold one word are accepted, and the pad
bits above the word in the last byte must be 0. -/
def wordOfBytes (n : Nat) (bs : List Byte) : Except DecodeError (BitVec n) :=
  if bs.length = wordBytes n then
    if bytesToNat bs < 2 ^ n then .ok (BitVec.ofNat n (bytesToNat bs)) else .error .wordTooWide
  else .error .wrongByteCount

/-- R45: the bytes that carry a command. -/
def encodeBytes (cfg : Config) (i : Instr) : List Byte := wordToBytes (encode cfg i)

/-- R45: a command carried as bytes. -/
def decodeBytes (cfg : Config) (bs : List Byte) : Except DecodeError Instr := (wordOfBytes cfg.reqW bs).map (decode cfg)

/-- The command the decoder reads from the low `nbits` bits of `w`, numbered as the opcode table numbers them, at the
reference configuration; the bits above `nbits` are 0. -/
def decodeTableWord (nbits w : Nat) : Option Instr :=
  match decodeWord Config.reference (w % 2 ^ nbits) with
  | .ok i => some i
  | .error _ => none

end Sys2Proof
end

