-- ==== Sys2Proof/Machine/State.lean ====
section
/-! DEFINITION. The state of the block (10_state.md R21 to R32), the port streams of 30_encoding.md R66, the two reasons
types of the host's interface, and the state after reset (70_reset_and_hazards.md R150). -/

namespace Sys2Proof.Machine

/-- R21: PHASE, one bit. -/
inductive Phase where
  /-- 0 -/
  | awaitingPredict
  /-- 1 -/
  | awaitingUpdate
deriving DecidableEq, Repr

/-- R27, R131: FAULT_CODE, two bits. -/
inductive FaultCode where
  /-- 0: no fault since reset. -/
  | none
  /-- 1: UPDATE while PHASE = 0 (R134). -/
  | updateWithoutPredict
  /-- 2: PREDICT while PHASE = 1 (R135). -/
  | predictWhilePending
  /-- 3: a request with OP = 00 or OP = 11 (R133). -/
  | reservedOpcode
deriving DecidableEq, Repr

/-- The weight table RAM (R32, R40): a list of (linear cell address, cell) pairs in one canonical form
(Machine/Memory.lean: `Memory.wf`). -/
abbrev Memory := List Host.Cell

/-- R28, R29: the circular history buffer, one entry per age, `e[0]` the newest. -/
structure Chb (addrW H : Nat) where
  /-- R28: `CHB_E[0..H-1]`. -/
  e : Vector (BitVec addrW) H
  /-- R29: CHB_SIZE, in `[0, H]`. -/
  size : Fin (H + 1)
deriving DecidableEq, Repr

/-- R66, R151: what the host can do at the ports between two commands: present a request word, or assert `rst`. -/
inductive PortEvent (reqW : Nat) where
  | request (w : BitVec reqW)
  | rst
deriving DecidableEq, Repr

/-- The state of one block. `phase` to `wt` are the architectural state of R21 to R32 and nothing else. `cfg` is the
instance's fixed configuration, which no step changes (log 1), and `pending` and `responses` are the two sides of the
command port (log 2): what the host has still to present, and what the block has answered. -/
structure State where
  /-- R6 to R10, R37: the configuration the block was built with. -/
  cfg : Config
  /-- R21: PHASE. -/
  phase : Phase
  /-- R22: CAP_ADDR. -/
  capAddr : BitVec cfg.addrW
  /-- R23: CAP_COND. -/
  capCond : Bool
  /-- R24: TOK_TAKEN. -/
  tokTaken : Bool
  /-- R25: TOK_SCORE, two's complement. -/
  tokScore : BitVec cfg.scoreW
  /-- R26: FAULTED. -/
  faulted : Bool
  /-- R27: FAULT_CODE. -/
  faultCode : FaultCode
  /-- R28, R29: CHB_E and CHB_SIZE. -/
  chb : Chb cfg.addrW cfg.H
  /-- R31, R89: GHR, exactly `H` bits, bit 0 the newest outcome. -/
  ghr : BitVec cfg.H
  /-- R32: the weight table. -/
  wt : Memory
  /-- The host's command stream, oldest first (R37, R66). -/
  pending : List (PortEvent cfg.reqW)
  /-- The response words delivered so far, in request order, oldest first (R63, R66). -/
  responses : List (BitVec cfg.respW)
deriving DecidableEq, Repr

/-- Why a step stops with a fault: NEVER. A contract violation is a fault the block takes and survives, recorded in FAULTED and
FAULT_CODE (R132), and every request is answered (R156), so no step of this machine stops (log 8). -/
inductive Fault where
deriving DecidableEq, Repr

/-- Why a step has no meaning. -/
inductive Refusal where
  /-- An arm of `exec` whose command has no meaning yet. No arm raises it: every row of the opcode table has its meaning.
  Safe: it would only stop a run. -/
  | notModelled (mnemonic : String)
deriving DecidableEq, Repr

/-- R150: the state of a freshly reset block of configuration `cfg`, with nothing presented and nothing answered. -/
def State.resetOf (cfg : Config) : State where
  cfg := cfg
  phase := .awaitingPredict
  capAddr := 0
  capCond := false
  tokTaken := false
  tokScore := 0
  faulted := false
  faultCode := .none
  chb := { e := Vector.replicate cfg.H 0, size := 0 }
  ghr := 0
  wt := []
  pending := []
  responses := []

/-- The machine right after reset, at the reference configuration (log 1). -/
def State.reset : State := State.resetOf Config.reference

end Sys2Proof.Machine
end

