-- ==== Sys2Proof/Machine/Memory.lean ====
section
/-! DEFINITION. The weight-table RAM as plain data: one canonical list of (address, cell) pairs, addresses strictly rising, no
entry equal to what an unlisted address reads as. -/

namespace Sys2Proof.Machine

/-- R32: every cell resets to 0, so a cell that nothing has written reads 0. -/
def Memory.unlisted : Byte := 0

/-- The cell at a linear address. -/
def Memory.read : Memory → Nat → Byte
  | [], _ => Memory.unlisted
  | (k, v) :: rest, a => if k = a then v else Memory.read rest a

/-- One entry in front of a list whose addresses are all higher; none where the cell holds what an unlisted one reads as. -/
def Memory.cons (a : Nat) (b : Byte) (rest : Memory) : Memory :=
  if b = Memory.unlisted then rest else (a, b) :: rest

/-- Write one cell, keeping the canonical form. -/
def Memory.write : Memory → Nat → Byte → Memory
  | [], a, b => Memory.cons a b []
  | (k, v) :: rest, a, b =>
    if a < k then Memory.cons a b ((k, v) :: rest)
    else if a = k then Memory.cons a b rest
    else (k, v) :: Memory.write rest a b

/-- The canonical form. -/
abbrev Memory.wf (m : Memory) : Prop :=
  m.Pairwise (fun x y => x.1 < y.1) ∧ ∀ x ∈ m, x.2 ≠ Memory.unlisted

end Sys2Proof.Machine
end

