-- ==== Sys2Proof/Machine/Response.lean ====
section
/-! DEFINITION. The response word (30_encoding.md R63 to R65), and the bytes that carry it
(20_memory.md R45). -/

namespace Sys2Proof.Machine

/-- R21: the PHASE bit. -/
def Phase.bit : Phase → Bool
  | .awaitingPredict => false
  | .awaitingUpdate => true

def Phase.ofBit : Bool → Phase
  | false => .awaitingPredict
  | true => .awaitingUpdate

/-- R131: the FAULT_CODE field. -/
def FaultCode.bits : FaultCode → BitVec 2
  | .none => 0#2
  | .updateWithoutPredict => 1#2
  | .predictWhilePending => 2#2
  | .reservedOpcode => 3#2

def FaultCode.ofBits (b : BitVec 2) : FaultCode :=
  if b = 0#2 then .none
  else if b = 1#2 then .updateWithoutPredict
  else if b = 2#2 then .predictWhilePending
  else .reservedOpcode

/-- R63: the fields of a response. -/
structure Response where
  err : Bool
  faulted : Bool
  faultCode : FaultCode
  phase : Phase
  taken : Bool
  score : Int
  target : Nat
deriving DecidableEq, Repr

/-- R63: `{TARGET, SCORE, TAKEN, PHASE, FAULT_CODE, FAULTED, ERR}`, the score in two's complement (R16, R65). -/
def Response.encode (cfg : Config) (r : Response) : BitVec cfg.respW :=
  BitVec.ofNat cfg.addrW r.target ++ BitVec.ofInt cfg.scoreW r.score ++ BitVec.ofBool r.taken
    ++ BitVec.ofBool r.phase.bit ++ r.faultCode.bits ++ BitVec.ofBool r.faulted ++ BitVec.ofBool r.err

/-- R63, R74: a response word read back field by field. -/
def Response.decode (cfg : Config) (w : BitVec cfg.respW) : Response where
  err := w.getLsbD 0
  faulted := w.getLsbD 1
  faultCode := FaultCode.ofBits (w.extractLsb' 2 2)
  phase := Phase.ofBit (w.getLsbD 4)
  taken := w.getLsbD 5
  score := (w.extractLsb' 6 cfg.scoreW).toInt
  target := (w.extractLsb' (cfg.scoreW + 6) cfg.addrW).toNat

/-- R45: the bytes that carry a response, byte 0 holding bits `[7:0]`. -/
def Response.encodeBytes (cfg : Config) (r : Response) : List Byte := wordToBytes (r.encode cfg)

/-- R45: a response carried as bytes, read back field by field. -/
def Response.decodeBytes (cfg : Config) (bs : List Byte) : Except DecodeError Response :=
  (wordOfBytes cfg.respW bs).map (Response.decode cfg)

end Sys2Proof.Machine
end

