-- ==== Sys2Proof/Machine/Ops.lean ====
section
/-! DEFINITION. The named operations over the block's storage and registers: weight cells (R40 to R42, R93), the history
buffer (R75 to R84), the history register (R85 to R89), the response (R63), fault entry and refusal (R130, R132), reset
(R150, R151) and the command port (R66). -/

namespace Sys2Proof.Machine

/-! ### The weight table -/

/-- R40: the index `(c, r, l)` of one cell `W[c][r][l]`. -/
structure Cell where
  ctx : Nat
  row : Nat
  lane : Nat
deriving DecidableEq, Repr

/-- R40: the indices that exist: `c ∈ [0,N)`, `r ∈ [0,M)`, `l ∈ [0,H+1)`. -/
abbrev Cell.valid (cfg : Config) (x : Cell) : Prop := x.ctx < cfg.N ∧ x.row < cfg.M ∧ x.lane < cfg.H + 1

/-- R40: the linear address `(c·M + r)·(H+1) + l`; no rule observes which linear form is used. -/
def Cell.address (cfg : Config) (x : Cell) : Nat := (x.ctx * cfg.M + x.row) * (cfg.H + 1) + x.lane

/-- R41: `W[c][r][l]`, the 8-bit two's-complement cell read as an integer. -/
def Memory.weight (cfg : Config) (m : Memory) (x : Cell) : Int := (m.read (x.address cfg)).toInt

/-- R42: `W[c][r][l] <- v`. -/
def Memory.setWeight (cfg : Config) (m : Memory) (x : Cell) (v : Int) : Memory :=
  m.write (x.address cfg) (BitVec.ofInt 8 v)

/-- R11: the range of a weight. -/
def wMin : Int := -127
def wMax : Int := 127

/-- R16: `clamp(v) = min(WMAX, max(WMIN, v))`. -/
def clamp (v : Int) : Int := min wMax (max wMin v)

/-- R93: one step toward `up`, saturating at the ends of the range. -/
def trainStep (w : Int) (up : Bool) : Int := if up then min (w + 1) wMax else max (w - 1) wMin

/-- R93: `cellTrain(c, r, l, up)`. -/
def Memory.cellTrain (cfg : Config) (m : Memory) (x : Cell) (up : Bool) : Memory :=
  m.setWeight cfg x (trainStep (m.weight cfg x) up)

/-! ### The circular history buffer, as functions of its state (R75) -/

/-- R76: `CHB.push(a)`. -/
def Chb.push {w h : Nat} (b : Chb w h) (a : BitVec w) : Chb w h where
  e := Vector.ofFn fun k => if k.val = 0 then a else b.e[k.val - 1]
  size := ⟨min (b.size.val + 1) h, by omega⟩

/-- R78: `CHB.size()`. -/
def Chb.occupancy {w h : Nat} (b : Chb w h) : Nat := b.size.val

/-- R79: `CHB.at(i)`: the address pushed `i` pushes ago, or the sentinel 0. -/
def Chb.atAge {w h : Nat} (b : Chb w h) (i : Nat) : BitVec w :=
  if hi : i < b.size.val then b.e[i]'(by omega) else 0

/-- R80, R81: `CHB.popFront()`: remove and return the oldest entry; on an empty buffer, no change and the sentinel 0. -/
def Chb.popFront {w h : Nat} (b : Chb w h) : BitVec w × Chb w h :=
  if b.size.val = 0 then (0, b)
  else
    (b.atAge (b.size.val - 1),
      { e := Vector.ofFn fun k => if k.val = b.size.val - 1 then 0 else b.e[k.val]
        size := ⟨b.size.val - 1, by omega⟩ })

/-! ### The global history register -/

/-- R85: `GHR <- ((GHR << 1) | o) & mask(H)`. -/
def ghrPush {h : Nat} (g : BitVec h) (o : Bool) : BitVec h :=
  BitVec.ofNat h (((g.toNat <<< 1) ||| o.toNat) &&& mask h)

/-- R86, R87: `GHR.bitAt(i)`, which is 0 for `i ≥ H`. -/
def ghrBitAt {h : Nat} (g : BitVec h) (i : Nat) : Bool := g.getLsbD i

/-! ### Response, fault entry, refusal and reset -/

/-- R17, R63: `respond(fields)` appends the response word; the status fields are those of the state that answers, and TARGET is
always 0 (R64). -/
def State.respond (s : State) (err taken : Bool) (score : Int) : State :=
  { s with
    responses := s.responses ++ [Response.encode s.cfg
      { err := err, faulted := s.faulted, faultCode := s.faultCode, phase := s.phase
        taken := taken, score := score, target := 0 }] }

/-- R63: the response words delivered so far, as numbers. -/
def State.responseWords (s : State) : List Nat := s.responses.map BitVec.toNat

/-- R130: while FAULTED = 1 a request changes no state and is answered with ERR = 1. -/
def State.refuse (s : State) : State := s.respond true false 0

/-- R132: fault entry. The block saves nothing else and has no handler, vector or mode change. -/
def State.raiseFault (s : State) (code : FaultCode) : State :=
  State.respond { s with faulted := true, faultCode := code } true false 0

/-- R150, R151: `rst` puts every state element in its reset value, in one step. The port streams belong to the host. -/
def State.applyReset (s : State) : State :=
  { State.resetOf s.cfg with pending := s.pending, responses := s.responses }

/-- R145: the block does nothing between commands. -/
def State.idle (s : State) : State := s

/-- R50, R66: the next thing the host presents, and the state that has accepted it. -/
def State.accept (s : State) : Option (PortEvent s.cfg.reqW × State) :=
  match s.pending with
  | [] => none
  | ev :: rest => some (ev, { s with pending := rest })

end Sys2Proof.Machine
end

