-- ==== Sys2Proof/Machine/Flags.lean ====
section
/-! DEFINITION. The one-bit results and conditions: the status view (R34), the sign test (R111), the training gate (R97, R98)
and the training directions (R95, R96). -/

namespace Sys2Proof.Machine

/-- R34: the read-only status view. -/
def State.statusView (s : State) : Phase × Bool × FaultCode := (s.phase, s.faulted, s.faultCode)

/-- R111: `predictedTaken = (score >= 0)`. -/
def takenOf (score : Int) : Bool := decide (0 ≤ score)

/-- R105: the sign with which a history cell enters the sum. -/
def signOf (bit : Bool) : Int := if bit then 1 else -1

/-- R13, R98: THETA as the exact rational the spec reads the literal `2.14 × (H+1) + 20.58` as. It is a constant of the
configuration, not state (R101). -/
def theta (cfg : Config) : ℚ := (214 * ((cfg.H : ℚ) + 1) + 2058) / 100

/-- R98: `100·THETA`, the integer the training gate compares with. -/
def theta100 (cfg : Config) : Nat := 214 * (cfg.H + 1) + 2058

/-- R98: `THETA_MAX(H) = floor((214·(H+1) + 2057) / 100)`, the largest `|s|` of low confidence. -/
def thetaMax (cfg : Config) : Nat := (214 * (cfg.H + 1) + 2057) / 100

/-- R97, R98: `|s| < THETA`, as the exact integer test `100·|s| < 214·(H+1) + 2058`. -/
def lowConfidence (cfg : Config) (score : Int) : Bool := decide (100 * score.natAbs < theta100 cfg)

/-- R97: `TOK_TAKEN ≠ actualTaken`. -/
def mispredicted (predicted actual : Bool) : Bool := predicted != actual

/-- R97: the training gate. -/
def trainGate (cfg : Config) (score : Int) (predicted actual : Bool) : Bool :=
  lowConfidence cfg score || mispredicted predicted actual

/-- R95: the direction in which the bias is trained. -/
def biasUp (actual : Bool) : Bool := actual

/-- R96: the direction in which a history cell is trained. -/
def historyUp (bit actual : Bool) : Bool := bit == actual

end Sys2Proof.Machine
end

