-- ==== Sys2Proof/Machine/Operands.lean ====
section
/-! DEFINITION. How a command's operands select weight cells (42_weight_table.md R90 to R92, R102). -/

namespace Sys2Proof.Machine

/-- R61, R62: field `A` as an ADDR_W-bit unsigned operand. -/
def State.addressOperand (s : State) (a : Nat) : BitVec s.cfg.addrW := BitVec.ofNat s.cfg.addrW a

/-- R90: `ctx(a) = a mod N`. -/
def contextOf (cfg : Config) (a : Nat) : Nat := a % cfg.N

/-- R91: `row(i) = CHB.at(i) mod M`, from the history address. -/
def State.rowAt (s : State) (i : Nat) : Nat := (s.chb.atAge i).toNat % s.cfg.M

/-- R92: the bias cell `W[c][0][0]`. -/
def biasCell (c : Nat) : Cell := { ctx := c, row := 0, lane := 0 }

/-- R92: history position `i` uses lane `i + 1` (90_conflicts.md C1). -/
def State.historyCell (s : State) (c i : Nat) : Cell := { ctx := c, row := s.rowAt i, lane := i + 1 }

/-- R84: the history positions a command visits: `[0, CHB_SIZE)`. -/
def State.positions (s : State) : List Nat := List.range s.chb.occupancy

/-- R102: the cells a conditional branch of context `c` reads and, when it trains, writes. -/
def State.accessCells (s : State) (c : Nat) : List Cell := biasCell c :: s.positions.map (s.historyCell c)

end Sys2Proof.Machine
end

