-- ==== Sys2Proof/Machine/Accumulator.lean ====
section
/-! DEFINITION. The weighted-sum accumulator (43_predictor_commands.md R105, R106, R108): exact, on integers. -/

namespace Sys2Proof.Machine

/-- R105: the term of history position `i`. -/
def State.term (s : State) (c i : Nat) : Int :=
  signOf (ghrBitAt s.ghr i) * s.wt.weight s.cfg (s.historyCell c i)

/-- R105: `score(c)`. -/
def State.score (s : State) (c : Nat) : Int :=
  s.wt.weight s.cfg (biasCell c) + (s.positions.map (s.term c)).sum

/-- R108: the source's procedure, which adds or subtracts one weight at a time. -/
def State.scoreLoop (s : State) (c : Nat) : Int :=
  s.positions.foldl
    (fun acc i =>
      if ghrBitAt s.ghr i then acc + s.wt.weight s.cfg (s.historyCell c i)
      else acc - s.wt.weight s.cfg (s.historyCell c i))
    (s.wt.weight s.cfg (biasCell c))

end Sys2Proof.Machine
end

