-- ==== Sys2Proof/Machine/Predict.lean ====
section
/-! DEFINITION. PREDICT (43_predictor_commands.md R109 to R115). -/

namespace Sys2Proof.Machine

/-- R110: capture the inputs and open the token. -/
def State.capture (s : State) (cond : Bool) (a : BitVec s.cfg.addrW) (taken : Bool) (score : Int) : State :=
  { s with phase := .awaitingUpdate, capAddr := a, capCond := cond, tokTaken := taken
           tokScore := BitVec.ofInt s.cfg.scoreW score }

/-- R112: an unconditional branch reads no state and is predicted taken with score 0. -/
def State.predictUnconditional (s : State) (a : BitVec s.cfg.addrW) : State :=
  (s.capture false a true 0).respond false true 0

/-- R111, R113: a conditional branch is predicted by the sign of its score. -/
def State.predictConditional (s : State) (a : BitVec s.cfg.addrW) : State :=
  let score := s.score (contextOf s.cfg a.toNat)
  (s.capture true a (takenOf score) score).respond false (takenOf score) score

/-- R109, with the checks in the order of R136. -/
def execPredict (isConditional : Bool) (address : Nat) (s : State) : Host.Outcome State Fault Refusal :=
  if s.faulted then .next s.refuse
  else match s.phase with
    | .awaitingUpdate => .next (s.raiseFault .predictWhilePending)
    | .awaitingPredict =>
      if isConditional then .next (s.predictConditional (s.addressOperand address))
      else .next (s.predictUnconditional (s.addressOperand address))

end Sys2Proof.Machine
end

