-- ==== Sys2Proof/Machine/Reserved.lean ====
section
/-! DEFINITION. The two reserved opcodes (R60, R133): they raise RESERVED_OPCODE in either phase, whatever `F` and `A` hold. -/

namespace Sys2Proof.Machine

/-- R133, R136: a reserved request. -/
def State.reservedRequest (s : State) : State :=
  if s.faulted then s.refuse else s.raiseFault .reservedOpcode

/-- R60: `OP = 00`. -/
def execReservedOp00 (_f : Bool) (_a : Nat) (s : State) : Host.Outcome State Fault Refusal := .next s.reservedRequest

/-- R60: `OP = 11`. -/
def execReservedOp11 (_f : Bool) (_a : Nat) (s : State) : Host.Outcome State Fault Refusal := .next s.reservedRequest

end Sys2Proof.Machine
end

