-- ==== Sys2Proof/Machine/Update.lean ====
section
/-! DEFINITION. UPDATE (43_predictor_commands.md R116 to R126). -/

namespace Sys2Proof.Machine

/-- R119, R120: the cells one UPDATE trains, each with its direction: the bias, then one cell per history position. -/
def State.trainTargets (s : State) (taken : Bool) : List (Cell × Bool) :=
  let c := contextOf s.cfg s.capAddr.toNat
  (biasCell c, biasUp taken) ::
    s.positions.map fun i => (s.historyCell c i, historyUp (ghrBitAt s.ghr i) taken)

/-- R103: one `cellTrain` step for each target. -/
def Memory.trainAll (cfg : Config) (m : Memory) (ts : List (Cell × Bool)) : Memory :=
  ts.foldl (fun acc t => acc.cellTrain cfg t.1 t.2) m

/-- R100, R118: whether this UPDATE trains. -/
def State.trains (s : State) (taken : Bool) : Bool := trainGate s.cfg s.tokScore.toInt s.tokTaken taken

/-- R100, R118 to R121: the weight table after the training, which reads the history as it was before the pushes. -/
def State.trained (s : State) (taken : Bool) : Memory :=
  if s.trains taken then s.wt.trainAll s.cfg (s.trainTargets taken) else s.wt

/-- R117: after an unconditional branch UPDATE changes only PHASE. -/
def State.updateUnconditional (s : State) : State :=
  State.respond { s with phase := .awaitingPredict } false false 0

/-- R118 to R122: after a conditional branch, train, then push the address and the outcome. -/
def State.updateConditional (s : State) (taken : Bool) : State :=
  State.respond
    { s with phase := .awaitingPredict, wt := s.trained taken, chb := s.chb.push s.capAddr, ghr := ghrPush s.ghr taken }
    false false 0

/-- R116, with the checks in the order of R136; `actualTarget` is read and ignored (R123). -/
def execUpdate (actualTaken : Bool) (_actualTarget : Nat) (s : State) : Host.Outcome State Fault Refusal :=
  if s.faulted then .next s.refuse
  else match s.phase with
    | .awaitingPredict => .next (s.raiseFault .updateWithoutPredict)
    | .awaitingUpdate =>
      if s.capCond then .next (s.updateConditional actualTaken) else .next s.updateUnconditional

end Sys2Proof.Machine
end

