-- ==== Sys2Proof/Machine/Dispatch.lean ====
section
/-! DEFINITION. One arm per command. -/

namespace Sys2Proof.Machine

def exec (i : Instr) (s : State) : Host.Outcome State Fault Refusal :=
  match i with
  | .predict isConditional address => Sys2Proof.Machine.execPredict isConditional address s
  | .update actualTaken actualTarget => Sys2Proof.Machine.execUpdate actualTaken actualTarget s
  | .reservedOp00 f a => Sys2Proof.Machine.execReservedOp00 f a s
  | .reservedOp11 f a => Sys2Proof.Machine.execReservedOp11 f a s

end Sys2Proof.Machine
end

