-- ==== Sys2Proof/Machine/Step.lean ====
section
/-! DEFINITION. One step of the block: one port event, handled whole (R17, R47, R50, R66, R151). -/

namespace Sys2Proof.Machine

/-- R66: one request is one atomic transaction; `rst` is a step of its own, between commands (R151); with nothing presented,
nothing changes (R145). -/
def step (s : State) : Host.Outcome State Fault Refusal :=
  match s.accept with
  | none => .next s.idle
  | some (.rst, t) => .next t.applyReset
  | some (.request w, t) => exec (decode s.cfg w) t

/-- The state whose next step presents the request word `w mod 2^nbits`, before everything the host has still to present. -/
def State.withFetchWord (s : State) (nbits w : Nat) : State :=
  { s with pending := .request (BitVec.ofNat s.cfg.reqW (w % 2 ^ nbits)) :: s.pending }

end Sys2Proof.Machine
end

