-- ==== Sys2Proof/Machine/Assembler.lean ====
section
/-! DEFINITION. The program notation of 30_encoding.md R69 to R74: lines of text, the commands they stand for, and the stream of
port events a program presents to the block. DESIGN CHOICE (log 6): the details of the notation those rules leave open. -/

namespace Sys2Proof.Machine

/-- One line of a program. -/
inductive AsmLine where
  /-- R69: `predict <addr>, c|u`. -/
  | predict (addr : Nat) (conditional : Bool)
  /-- R70: `update t|n [, <target>]`. -/
  | update (taken : Bool) (target : Nat)
  /-- R71: `cbr <addr>, t|n`. -/
  | cbr (addr : Nat) (taken : Bool)
  /-- R72: `ubr <addr>`. -/
  | ubr (addr : Nat)
  /-- R73: `.word <value>`. -/
  | word (value : Nat)
  /-- R73: `reset`. -/
  | reset
  /-- R73: `.config N=<n>, M=<m>, H=<h> [, ADDR_W=<w>]`. -/
  | config (n m h w : Nat)
  /-- R73: `.rep <k>`. -/
  | rep (k : Nat)
  /-- R73: `.endr`. -/
  | endr
  /-- An empty line or a comment. -/
  | blank
deriving DecidableEq, Repr

/-! ### From lines to port events -/

/-- A command's request word; an address at or above `2^ADDR_W` is not an operand (R69). -/
def assembleInstr (cfg : Config) (i : Instr) : Option (PortEvent cfg.reqW) :=
  if i.wf cfg then some (.request (encode cfg i)) else none

/-- R69 to R73: what one line presents to the block; a directive presents nothing, and `.config` must name the configuration the
program is assembled for. -/
def assembleLine (cfg : Config) : AsmLine → Option (List (PortEvent cfg.reqW))
  | .predict a c => (assembleInstr cfg (.predict c a)).map fun e => [e]
  | .update t a => (assembleInstr cfg (.update t a)).map fun e => [e]
  | .cbr a t => do return [← assembleInstr cfg (.predict true a), ← assembleInstr cfg (.update t 0)]
  | .ubr a => do return [← assembleInstr cfg (.predict false a), ← assembleInstr cfg (.update true 0)]
  | .word v => if v < 2 ^ cfg.reqW then some [.request (BitVec.ofNat cfg.reqW v)] else none
  | .reset => some [.rst]
  | .config n m h w => if Config.build? n m h w = some cfg then some [] else none
  | .rep _ | .endr | .blank => some []

/-- R73: `.rep k … .endr` repeats the enclosed lines `k` times. The stack holds, innermost first, each open block's count and the
events that stand before it. -/
def assembleLines (cfg : Config) :
    List AsmLine → List (Nat × List (PortEvent cfg.reqW)) → List (PortEvent cfg.reqW) →
      Option (List (PortEvent cfg.reqW))
  | [], [], out => some out
  | [], _ :: _, _ => none
  | .rep k :: ls, stack, out => assembleLines cfg ls ((k, out) :: stack) []
  | .endr :: ls, (k, before) :: stack, out => assembleLines cfg ls stack (before ++ (List.replicate k out).flatten)
  | .endr :: _, [], _ => none
  | l :: ls, stack, out =>
    match assembleLine cfg l with
    | some es => assembleLines cfg ls stack (out ++ es)
    | none => none

/-- R73, R140: the configuration a program names on its first line that is not blank. -/
def programConfig : List AsmLine → Option Config
  | .blank :: ls => programConfig ls
  | .config n m h w :: _ => Config.build? n m h w
  | _ => none

/-- A program, ready to run on a freshly reset block of the configuration it names. -/
def loadProgram (ls : List AsmLine) : Option State := do
  let cfg ← programConfig ls
  let es ← assembleLines cfg ls [] []
  return { State.resetOf cfg with pending := es }

/-! ### From text to lines -/

def tokenOf (cur : List Char) : List (List Char) := if cur = [] then [] else [cur.reverse]

/-- The tokens of one line: runs of characters between blanks, each comma a token of its own; `;` starts a comment (R73). -/
def tokens : List Char → List Char → List (List Char)
  | [], cur => tokenOf cur
  | c :: cs, cur =>
    if c = ';' then tokenOf cur
    else if c = ' ' ∨ c = '\t' ∨ c = '\r' then tokenOf cur ++ tokens cs []
    else if c = ',' then tokenOf cur ++ [','] :: tokens cs []
    else tokens cs (c :: cur)

def decDigit (c : Char) : Option Nat :=
  if 48 ≤ c.toNat ∧ c.toNat ≤ 57 then some (c.toNat - 48) else none

def hexDigit (c : Char) : Option Nat :=
  if 65 ≤ c.toNat ∧ c.toNat ≤ 70 then some (c.toNat - 55)
  else if 97 ≤ c.toNat ∧ c.toNat ≤ 102 then some (c.toNat - 87)
  else decDigit c

def digits (base : Nat) (digit : Char → Option Nat) : List Char → Nat → Option Nat
  | [], acc => some acc
  | c :: cs, acc =>
    match digit c with
    | some d => digits base digit cs (base * acc + d)
    | none => none

/-- R69: `<addr>` is an unsigned decimal or `0x` hexadecimal number. DESIGN CHOICE (log 6): no rule gives the number form of `<target>`
(R70) nor of `<value>`, `<k>` and the `.config` settings (R73), and the same two forms are read for all of them. -/
def parseNumber : List Char → Option Nat
  | '0' :: 'x' :: c :: cs => digits 16 hexDigit (c :: cs) 0
  | c :: cs => digits 10 decDigit (c :: cs) 0
  | [] => none

/-- A one-letter flag. -/
def parseFlag (yes no : Char) (t : List Char) : Option Bool :=
  if t = [yes] then some true else if t = [no] then some false else none

/-- `<name>=<number>`. -/
def parseSetting : List Char → List Char → Option Nat
  | [], '=' :: cs => parseNumber cs
  | k :: ks, c :: cs => if k = c then parseSetting ks cs else none
  | _, _ => none

/-- R69 to R73: one line's tokens. -/
def parseTokens : List (List Char) → Option AsmLine
  | [] => some .blank
  | kw :: args =>
    if kw = "predict".toList then
      match args with
      | [a, [','], f] => do return .predict (← parseNumber a) (← parseFlag 'c' 'u' f)
      | _ => none
    else if kw = "update".toList then
      match args with
      | [f] => do return .update (← parseFlag 't' 'n' f) 0
      | [f, [','], a] => do return .update (← parseFlag 't' 'n' f) (← parseNumber a)
      | _ => none
    else if kw = "cbr".toList then
      match args with
      | [a, [','], f] => do return .cbr (← parseNumber a) (← parseFlag 't' 'n' f)
      | _ => none
    else if kw = "ubr".toList then
      match args with
      | [a] => do return .ubr (← parseNumber a)
      | _ => none
    else if kw = ".word".toList then
      match args with
      | [v] => do return .word (← parseNumber v)
      | _ => none
    else if kw = ".rep".toList then
      match args with
      | [k] => do return .rep (← parseNumber k)
      | _ => none
    else if kw = ".config".toList then
      match args with
      | [n, [','], m, [','], h] => do
        return .config (← parseSetting ['N'] n) (← parseSetting ['M'] m) (← parseSetting ['H'] h) 64
      | [n, [','], m, [','], h, [','], w] => do
        return .config (← parseSetting ['N'] n) (← parseSetting ['M'] m) (← parseSetting ['H'] h)
          (← parseSetting "ADDR_W".toList w)
      | _ => none
    else if kw = "reset".toList ∧ args = [] then some .reset
    else if kw = ".endr".toList ∧ args = [] then some .endr
    else none

/-- One line of text. -/
def parseLine (l : List Char) : Option AsmLine := parseTokens (tokens l [])

/-- The lines of a text. -/
def splitLines : List Char → List Char → List (List Char)
  | [], cur => [cur.reverse]
  | c :: cs, cur => if c = '\n' then cur.reverse :: splitLines cs [] else splitLines cs (c :: cur)

/-- A whole program as text. -/
def parseProgram (text : List Char) : Option (List AsmLine) := (splitLines text []).mapM parseLine

/-! ### The listing of a response -/

def hexChar (d : Nat) : Char := Char.ofNat (if d < 10 then d + 48 else d + 55)

def hexDigitsAux : Nat → Nat → List Char → List Char
  | 0, _, acc => acc
  | fuel + 1, n, acc =>
    if n < 16 then hexChar n :: acc else hexDigitsAux fuel (n / 16) (hexChar (n % 16) :: acc)

/-- The hexadecimal digits of `n`, without leading zeros. -/
def hexDigits (n : Nat) : List Char := hexDigitsAux (Nat.log2 n / 4 + 1) n []

/-- R74: `-> resp 0x<hex>`. -/
def listResponse {w : Nat} (r : BitVec w) : List Char := "-> resp 0x".toList ++ hexDigits r.toNat

end Sys2Proof.Machine
end

