-- ==== Sys2Proof/Machine/Instances.lean ====
section
/-! DEFINITION. Several blocks side by side (60_exceptions.md R143). -/

namespace Sys2Proof.Machine

/-- R143: one step of instance `k`; the other instances are not read and not written. -/
def stepInstance (k : Nat) (sys : List State) : List State :=
  match sys[k]? with
  | none => sys
  | some s =>
    match step s with
    | .next t => sys.set k t
    | .fault _ => sys
    | .refused _ => sys

end Sys2Proof.Machine
end

