-- ==== Sys2Proof/Machine/Ring.lean ====
section
/-! DEFINITION. The ring form of the history buffer that R83 allows, and the abstraction that maps it to the entry-per-age form
the machine uses. -/

namespace Sys2Proof.Machine

/-- R83: a storage array, a write pointer and the size. -/
structure RingChb (addrW H : Nat) where
  ring : Vector (BitVec addrW) H
  wp : Fin H
  size : Fin (H + 1)
deriving DecidableEq, Repr

/-- R83: `RING[(wp + i) mod H]`. -/
def RingChb.slot {w h : Nat} (r : RingChb w h) (i : Nat) : BitVec w :=
  r.ring[(r.wp.val + i) % h]'(Nat.mod_lt _ r.wp.pos)

/-- R83: `wp <- (wp + H - 1) mod H; RING[wp] <- a; size <- min(size+1, H)`. -/
def RingChb.push {w h : Nat} (r : RingChb w h) (a : BitVec w) : RingChb w h :=
  let wp : Fin h := ⟨(r.wp.val + h - 1) % h, Nat.mod_lt _ r.wp.pos⟩
  { ring := r.ring.set wp.val a wp.isLt, wp := wp, size := ⟨min (r.size.val + 1) h, by omega⟩ }

/-- R83: `at(i)` reads the slot when `i < size`. -/
def RingChb.atAge {w h : Nat} (r : RingChb w h) (i : Nat) : BitVec w := if i < r.size.val then r.slot i else 0

/-- R83: `popFront` decrements `size` only; R81: nothing happens on an empty buffer. -/
def RingChb.popFront {w h : Nat} (r : RingChb w h) : BitVec w × RingChb w h :=
  if r.size.val = 0 then (0, r)
  else (r.slot (r.size.val - 1), { r with size := ⟨r.size.val - 1, by omega⟩ })

/-- R83: `CHB_E[k] = (k < size) ? RING[(wp + k) mod H] : 0`. -/
def RingChb.toChb {w h : Nat} (r : RingChb w h) : Chb w h where
  e := Vector.ofFn fun k => r.atAge k.val
  size := r.size

end Sys2Proof.Machine
end

