-- ==== Sys2Proof/Safety.lean ====
section
/-! DEFINITION. The terms claims are stated in: what a run without a contract violation is (R139, R155), and the invariant of the
block. -/

namespace Sys2Proof.Machine

/-- R139: the success condition of a run. -/
abbrev State.ok (s : State) : Prop := s.faulted = false

/-- `n` steps, stopping at the first fault or refusal (there is none: R156). It is the host's run of `Sys2Proof.core`
(Laws/Step.lean: `run_eq_core_run`). -/
def run : Nat → State → Host.Outcome State Fault Refusal
  | 0, s => .next s
  | n + 1, s =>
    match step s with
    | .next t => run n t
    | .fault r => .fault r
    | .refused r => .refused r

/-- A run of `n` steps from `s` to `t`. -/
def runs (n : Nat) (s t : State) : Prop := run n s = .next t

/-- R128, R155: the host's stream alternates PREDICT and UPDATE, starting with the command the phase awaits; `rst` may be asserted
between any two commands (R156). -/
def alternates (cfg : Config) : Phase → List (PortEvent cfg.reqW) → Bool
  | _, [] => true
  | _, .rst :: es => alternates cfg .awaitingPredict es
  | p, .request w :: es =>
    match decode cfg w, p with
    | .predict _ _, .awaitingPredict => alternates cfg .awaitingUpdate es
    | .update _ _, .awaitingUpdate => alternates cfg .awaitingPredict es
    | .predict _ _, .awaitingUpdate => false
    | .update _ _, .awaitingPredict => false
    | .reservedOp00 _ _, _ => false
    | .reservedOp11 _ _, _ => false

/-- The number of requests in a stream. -/
def requestCount {w : Nat} : List (PortEvent w) → Nat
  | [] => 0
  | .request _ :: es => requestCount es + 1
  | .rst :: es => requestCount es

/-- R88: the resolved conditional branches the block remembers, newest first, each address with its outcome. -/
def State.history (s : State) : List (Nat × Bool) :=
  s.positions.map fun i => ((s.chb.atAge i).toNat, ghrBitAt s.ghr i)

/-- R35: the history state as plain numbers: CHB_E, CHB_SIZE and GHR. -/
def State.historyBits (s : State) : List Nat × Nat × Nat :=
  (s.chb.e.toList.map BitVec.toNat, s.chb.occupancy, s.ghr.toNat)

/-- The captured record and the token as plain data: CAP_ADDR, CAP_COND, TOK_TAKEN, TOK_SCORE. -/
def State.captured (s : State) : Nat × Bool × Bool × Int :=
  (s.capAddr.toNat, s.capCond, s.tokTaken, s.tokScore.toInt)

/-! ### The parts of the invariant -/

/-- R32, R41: only cells that exist are listed. -/
abbrev State.cellsExist (s : State) : Prop := ∀ x ∈ s.wt, x.1 < s.cfg.cells

/-- R11, R33 (a), R94: no cell holds the pattern `0x80`, so every weight is in `[-127, 127]`. -/
abbrev State.weightsInRange (s : State) : Prop := ∀ x ∈ s.wt, x.2 ≠ 0x80#8

/-- R33 (b): the cells `W[c][r][0]` with `r ≠ 0` are never written: no listed address is one of theirs. -/
abbrev State.spareBiasUnwritten (s : State) : Prop :=
  ∀ x ∈ s.wt, x.1 % (s.cfg.H + 1) = 0 → x.1 / (s.cfg.H + 1) % s.cfg.M = 0

/-- R30 (b): the entries at or beyond CHB_SIZE hold 0. -/
abbrev Chb.tailZero {w h : Nat} (b : Chb w h) : Prop := ∀ k : Fin h, b.size.val ≤ k.val → b.e[k.val] = 0

/-- R26, R27: FAULT_CODE is 0 exactly while FAULTED is 0; R128: a phase fault leaves the phase it was raised in. -/
abbrev State.faultRecordAgrees (s : State) : Prop :=
  (s.faulted = false ↔ s.faultCode = .none) ∧
  (s.faultCode = .updateWithoutPredict → s.phase = .awaitingPredict) ∧
  (s.faultCode = .predictWhilePending → s.phase = .awaitingUpdate)

/-- R104, R111, R112: while a token is outstanding it is what the state predicts for the captured branch. -/
abbrev State.tokenAgrees (s : State) : Prop :=
  s.phase = .awaitingUpdate →
    if s.capCond then
      s.tokScore.toInt = s.score (contextOf s.cfg s.capAddr.toNat) ∧ s.tokTaken = takenOf s.tokScore.toInt
    else s.tokTaken = true ∧ s.tokScore = 0

/-- The invariant of the block. -/
structure State.Inv (s : State) : Prop where
  canonical : s.wt.wf
  cellsExist : s.cellsExist
  weightsInRange : s.weightsInRange
  spareBiasUnwritten : s.spareBiasUnwritten
  tailZero : s.chb.tailZero
  faultRecordAgrees : s.faultRecordAgrees
  tokenAgrees : s.tokenAgrees

end Sys2Proof.Machine
end

