-- ==== Sys2Proof/Certificates/Slice0/Obligations.lean ====
section
/-! DEFINITION. The statements about the block. Each is about every configuration (R6 to R10) unless it names one. A next state is
written as an update of the state before it, so that what an update does not name is unchanged. Wherever a statement names them,
the lists `pending` and `responses` are the model's own form of the command port (log 2), and `cfg` as a field of the state is the
model's own form of the parameters (log 1), and a byte of the weight table is named by its linear address (log 3). -/

open Sys2Proof Sys2Proof.Machine

/-! ### Request encoding (30_encoding.md) -/

/-- R55 to R60: no bit of an encoding is dropped. Decoding an encoded command gives it back, for every command of the opcode table,
every flag and every ADDR_W-bit operand. -/
def Obligations.DecodeOfEncodeIsTheCommand : Prop :=
  ∀ (cfg : Config) (i : Instr), i.wf cfg = true → decode cfg (encode cfg i) = i

/-- R59, R60, R68: every REQ_W-bit word is exactly one well-formed command, and encoding that command gives the word back. -/
def Obligations.EncodeOfDecodeIsTheWord : Prop :=
  ∀ (cfg : Config) (w : BitVec cfg.reqW), (decode cfg w).wf cfg = true ∧ encode cfg (decode cfg w) = w

/-- R56, R57, R58, R59, R68: the decoder reads `OP = w mod 4`, `F = bit 2`, `A = w / 8`, and decides by `OP`. -/
def Obligations.DecodeReadsOpThenFAndA : Prop :=
  ∀ (cfg : Config) (w : BitVec cfg.reqW),
    let f := decide (w.toNat / 4 % 2 = 1)
    let a := w.toNat / 8
    a < 2 ^ cfg.addrW ∧
    (w.toNat % 4 = 1 → decode cfg w = .predict f a) ∧
    (w.toNat % 4 = 2 → decode cfg w = .update f a) ∧
    (w.toNat % 4 = 0 → decode cfg w = .reservedOp00 f a) ∧
    (w.toNat % 4 = 3 → decode cfg w = .reservedOp11 f a)

/-- R55, R57, R58, R59: the request word of a command as the sum of its shifted fields. -/
def Obligations.RequestWordIsTheFieldSum : Prop :=
  ∀ (cfg : Config) (f : Bool) (a : Nat), a < 2 ^ cfg.addrW →
    cfg.reqW = cfg.addrW + 3 ∧
    (encode cfg (.predict f a)).toNat = 1 + 4 * f.toNat + 8 * a ∧
    (encode cfg (.update f a)).toNat = 2 + 4 * f.toNat + 8 * a ∧
    (encode cfg (.reservedOp00 f a)).toNat = 0 + 4 * f.toNat + 8 * a ∧
    (encode cfg (.reservedOp11 f a)).toNat = 3 + 4 * f.toNat + 8 * a

/-- R69, R70 and the vectors V-ENC: words written out from the encoding decode to the commands they stand for (ADDR_W = 64). -/
def Obligations.ListedRequestWordsDecode : Prop :=
  decodeWord Config.reference 0x8D = .ok (.predict true 0x11) ∧
  decodeWord Config.reference 0x8001 = .ok (.predict false 0x1000) ∧
  decodeWord Config.reference 0x7FFFFFFFFFFFFFFFD = .ok (.predict true (2 ^ 64 - 1)) ∧
  decodeWord Config.reference 0x6 = .ok (.update true 0) ∧
  decodeWord Config.reference 0x2006 = .ok (.update true 0x400) ∧
  decodeWord Config.reference 0x7FFFFFFFFFFFFFFFA = .ok (.update false (2 ^ 64 - 1)) ∧
  decodeWord Config.reference 0x0 = .ok (.reservedOp00 false 0) ∧
  decodeWord Config.reference 0x7FFFFFFFFFFFFFFFF = .ok (.reservedOp11 true (2 ^ 64 - 1))

/-- R45 (a transport outside the block): a request or a response carried as bytes, byte `k` holding bits `[8k+7:8k]` of its word, is
read back as the same command and the same response word. That a byte string of another length, or with a pad bit set, is rejected is
the model's choice (log 5) and is not claimed here. -/
def Obligations.ByteTransportIsLittleEndian : Prop :=
  (∀ (cfg : Config) (i : Instr), i.wf cfg = true →
    decodeBytes cfg (encodeBytes cfg i) = .ok i ∧
    (encodeBytes cfg i).length = (cfg.reqW + 7) / 8 ∧
    ∀ k, k < (cfg.reqW + 7) / 8 →
      (encodeBytes cfg i)[k]?.map BitVec.toNat = some ((encode cfg i).toNat / 256 ^ k % 256)) ∧
  (∀ (cfg : Config) (r : Response),
    Response.decodeBytes cfg (r.encodeBytes cfg) = .ok (Response.decode cfg (r.encode cfg)) ∧
    (r.encodeBytes cfg).length = (cfg.respW + 7) / 8 ∧
    ∀ k, k < (cfg.respW + 7) / 8 →
      (r.encodeBytes cfg)[k]?.map BitVec.toNat = some ((r.encode cfg).toNat / 256 ^ k % 256)) ∧
  ∀ (n : Nat) (v : BitVec n), wordOfBytes n (wordToBytes v) = .ok v

/-! ### Response encoding -/

/-- R63: the position of every response field. The score field holds the integer `s` as `s mod 2^SCORE_W` (R16). -/
def Obligations.ResponseWordIsTheFieldSum : Prop :=
  ∀ (cfg : Config) (r : Response), r.target < 2 ^ cfg.addrW →
    cfg.respW = cfg.addrW + cfg.scoreW + 6 ∧
    ((r.encode cfg).toNat : Int)
      = r.err.toNat + 2 * r.faulted.toNat
        + 4 * (match r.faultCode with
               | .none => 0 | .updateWithoutPredict => 1 | .predictWhilePending => 2 | .reservedOpcode => 3)
        + 16 * (match r.phase with | .awaitingPredict => 0 | .awaitingUpdate => 1)
        + 32 * r.taken.toNat + 64 * (r.score % 2 ^ cfg.scoreW) + 2 ^ (cfg.scoreW + 6) * r.target

/-- R63, R65: every field of a response can be read back from the word, the score as a signed value of SCORE_W bits. -/
def Obligations.ResponseFieldsReadBack : Prop :=
  ∀ (cfg : Config) (r : Response), r.target < 2 ^ cfg.addrW →
    -(2 ^ (cfg.scoreW - 1) : Int) ≤ r.score → r.score < 2 ^ (cfg.scoreW - 1) →
    Response.decode cfg (r.encode cfg) = r

/-! ### Configuration (00_scope.md) -/

/-- R140: a configuration with a non-positive parameter is not an instance of the block, and every other one is. -/
def Obligations.NonPositiveConfigurationIsRejected : Prop :=
  ∀ n m h w : Int,
    (Config.build? n m h w = none ↔ n ≤ 0 ∨ m ≤ 0 ∨ h ≤ 0 ∨ w ≤ 0) ∧
    ∀ cfg, Config.build? n m h w = some cfg →
      (cfg.N : Int) = n ∧ (cfg.M : Int) = m ∧ (cfg.H : Int) = h ∧ (cfg.addrW : Int) = w ∧
      1 ≤ cfg.N ∧ 1 ≤ cfg.M ∧ 1 ≤ cfg.H ∧ 1 ≤ cfg.addrW

/-- R12, R107: SCORE_W is the width R12 gives, and its two's-complement range holds every sum of `H + 1` weights. -/
def Obligations.ScoreWidthHoldsEverySum : Prop :=
  ∀ cfg : Config,
    2 ^ (cfg.scoreW - 2) ≤ 127 * (cfg.H + 1) ∧ 127 * (cfg.H + 1) ≤ 2 ^ (cfg.scoreW - 1) - 1

/-- R13, R98: the integer test of the gate is the exact comparison with THETA = 2.14·(H+1) + 20.58, and equals `|s| ≤ THETA_MAX`. -/
def Obligations.LowConfidenceTestIsExact : Prop :=
  ∀ (cfg : Config) (s : Int),
    theta cfg = 214 / 100 * ((cfg.H : ℚ) + 1) + 2058 / 100 ∧
    (lowConfidence cfg s = true ↔ ((|s| : Int) : ℚ) < theta cfg) ∧
    (lowConfidence cfg s = true ↔ 100 * |s| < 214 * ((cfg.H : Int) + 1) + 2058) ∧
    (lowConfidence cfg s = true ↔ |s| ≤ ⌊(214 * ((cfg.H : ℚ) + 1) + 2057) / 100⌋)

/-! ### Steps -/

/-- R50, R66: a step on a presented request is the execution of the command that request encodes, in the state that has accepted
it; and the host's way of presenting a word (`withFetchWord`, the model's own: log 2) presents exactly that word. -/
def Obligations.StepRunsThePresentedCommand : Prop :=
  (∀ (s : State) (i : Instr) (rest : List (PortEvent s.cfg.reqW)), i.wf s.cfg = true →
    s.pending = .request (encode s.cfg i) :: rest → step s = exec i { s with pending := rest }) ∧
  (∀ (s : State) (w : BitVec s.cfg.reqW) (rest : List (PortEvent s.cfg.reqW)),
    s.pending = .request w :: rest → step s = exec (decode s.cfg w) { s with pending := rest }) ∧
  (∀ (s : State) (nbits w : Nat), w < 2 ^ nbits → w < 2 ^ s.cfg.reqW →
    step (s.withFetchWord nbits w) = exec (decode s.cfg (BitVec.ofNat s.cfg.reqW w)) s)

/-- R150: an assertion of `rst` puts every state element in its reset value, whatever the state before it, and keeps the
configuration. -/
def Obligations.ResetRestoresEveryResetValue : Prop :=
  ∀ (s : State) (rest : List (PortEvent s.cfg.reqW)), s.pending = .rst :: rest →
    ∃ t, step s = .next t ∧ t.cfg = s.cfg ∧
      t.statusView = (.awaitingPredict, false, .none) ∧ t.captured = (0, false, false, 0) ∧
      (∀ k : Fin t.cfg.H, t.chb.e[k.val] = 0) ∧ t.chb.occupancy = 0 ∧ t.ghr.toNat = 0 ∧
      ∀ x : Cell, t.wt.weight t.cfg x = 0

/-- R145: the block does nothing between commands: with nothing presented, a step changes nothing. -/
def Obligations.NothingPresentedNothingChanges : Prop :=
  ∀ s : State, s.pending = [] → step s = .next s

/-- R156: nothing the host may do leaves the block stuck. Every step answers a next state of the same configuration, takes one event
from the stream, and answers a request with exactly one response (R63) and a reset with none. -/
def Obligations.EveryStepAnswers : Prop :=
  ∀ s : State, ∃ t, step s = .next t ∧ t.cfg = s.cfg ∧
    (s.pending = [] → t = s) ∧
    (∀ rest, s.pending = .rst :: rest →
      t.pending.length = rest.length ∧ t.responseWords = s.responseWords) ∧
    (∀ w rest, s.pending = .request w :: rest →
      t.pending.length = rest.length ∧
      ∃ r, t.responseWords = s.responseWords ++ [r])

/-- R63, R159: every request the host has presented is answered after finitely many steps, in request order: a run of as many steps
as there are events empties the stream and appends exactly one response per request. -/
def Obligations.EveryPresentedRequestIsAnswered : Prop :=
  ∀ s : State, ∃ t, runs s.pending.length s t ∧ t.pending = [] ∧
    ∃ new : List Nat, t.responseWords = s.responseWords ++ new ∧
      new.length = requestCount s.pending

/-- R34, R63, R64: the response to a request reports the status after it, TARGET 0, and ERR exactly when the request was not
executed; a response with ERR carries TAKEN 0 and SCORE 0. -/
def Obligations.EveryResponseReportsTheStatus : Prop :=
  ∀ (s t : State) (w : BitVec s.cfg.reqW) (rest : List (PortEvent s.cfg.reqW)),
    s.pending = .request w :: rest → step s = .next t →
    ∃ r : Response,
      t.responseWords = s.responseWords ++ [(r.encode s.cfg).toNat] ∧
      (r.phase, r.faulted, r.faultCode) = t.statusView ∧ r.target = 0 ∧
      (r.err = true ↔ t.faulted = true) ∧ (r.err = true → r.taken = false ∧ r.score = 0)

/-! ### PREDICT (43_predictor_commands.md) -/

/-- R110, R111, R113: where a conditional PREDICT executes, it captures its inputs, opens the token with the score of its context and
the sign of that score, and responds with both. Nothing else changes. -/
def Obligations.ConditionalPredictResult : Prop :=
  ∀ (s : State) (a : Nat), a < 2 ^ s.cfg.addrW → s.faulted = false → s.phase = .awaitingPredict →
    exec (.predict true a) s = .next
      { s with
        phase := .awaitingUpdate, capAddr := BitVec.ofNat s.cfg.addrW a, capCond := true
        tokTaken := decide (0 ≤ s.score (a % s.cfg.N)), tokScore := BitVec.ofInt s.cfg.scoreW (s.score (a % s.cfg.N))
        responses := s.responses ++ [Response.encode s.cfg
          { err := false, faulted := false, faultCode := s.faultCode, phase := .awaitingUpdate
            taken := decide (0 ≤ s.score (a % s.cfg.N)), score := s.score (a % s.cfg.N), target := 0 }] }

/-- R110, R112: where an unconditional PREDICT executes, it captures its inputs and predicts taken with score 0, whatever the weights
and the history hold. Nothing else changes. -/
def Obligations.UnconditionalPredictResult : Prop :=
  ∀ (s : State) (a : Nat), a < 2 ^ s.cfg.addrW → s.faulted = false → s.phase = .awaitingPredict →
    exec (.predict false a) s = .next
      { s with
        phase := .awaitingUpdate, capAddr := BitVec.ofNat s.cfg.addrW a, capCond := false
        tokTaken := true, tokScore := 0#s.cfg.scoreW
        responses := s.responses ++ [Response.encode s.cfg
          { err := false, faulted := false, faultCode := s.faultCode, phase := .awaitingUpdate
            taken := true, score := 0, target := 0 }] }

/-- R110, R113: every executed PREDICT, conditional or not, captures its inputs and opens the token, and its response carries the token
it opened, PHASE 1, no error, and the unchanged status (both 0). -/
def Obligations.ExecutedPredictRespondsWithItsToken : Prop :=
  ∀ (s : State) (c : Bool) (a : Nat), a < 2 ^ s.cfg.addrW → s.faulted = false → s.faultRecordAgrees →
    s.phase = .awaitingPredict →
    ∃ t, exec (.predict c a) s = .next t ∧ t.statusView = (.awaitingUpdate, false, .none) ∧
      t.captured = (a, c, t.tokTaken, t.tokScore.toInt) ∧
      t.responseWords = s.responseWords ++ [(Response.encode s.cfg
        { err := false, faulted := false, faultCode := .none, phase := .awaitingUpdate
          taken := t.tokTaken, score := t.tokScore.toInt, target := 0 }).toNat]

/-- R114, R132, R135: a PREDICT while a token is outstanding is not executed; it raises fault 2 and changes nothing else. -/
def Obligations.PredictWhilePendingFaults : Prop :=
  ∀ (s : State) (c : Bool) (a : Nat), s.faulted = false → s.phase = .awaitingUpdate →
    exec (.predict c a) s = .next
      { s with
        faulted := true, faultCode := .predictWhilePending
        responses := s.responses ++ [Response.encode s.cfg
          { err := true, faulted := true, faultCode := .predictWhilePending, phase := .awaitingUpdate
            taken := false, score := 0, target := 0 }] }

/-- R48: a PREDICT, in every form and on every path, leaves every byte of the weight table, the history buffer, the history register,
the configuration and the host's stream as they were; and where it executes, FAULTED and FAULT_CODE too. -/
def Obligations.PredictChangesOnlyCaptureAndToken : Prop :=
  ∀ (s t : State) (c : Bool) (a : Nat), exec (.predict c a) s = .next t →
    (∀ k, t.wt.read k = s.wt.read k) ∧ t.historyBits = s.historyBits ∧ t.cfg = s.cfg ∧
    t.pending.length = s.pending.length ∧
    (s.faulted = false → s.phase = .awaitingPredict → t.faulted = s.faulted ∧ t.faultCode = s.faultCode) ∧
    (¬(s.faulted = false ∧ s.phase = .awaitingPredict) → t.phase = s.phase ∧ t.captured = s.captured)

/-- R105, R108: the accumulator's value is the signed sum over the current occupancy, and the source's procedure computes it. -/
def Obligations.ScoreIsTheSignedSum : Prop :=
  ∀ (s : State) (c : Nat),
    s.score c
      = s.wt.weight s.cfg { ctx := c, row := 0, lane := 0 }
        + ∑ i ∈ Finset.range s.chb.occupancy,
            (if ghrBitAt s.ghr i then 1 else -1)
              * s.wt.weight s.cfg { ctx := c, row := (s.chb.atAge i).toNat % s.cfg.M, lane := i + 1 } ∧
    s.scoreLoop c = s.score c

/-- R107: the bound of the score, and that TOK_SCORE and the SCORE field hold it without overflow. -/
def Obligations.ScoreIsBoundedAndFits : Prop :=
  ∀ (s : State) (c : Nat), s.weightsInRange →
    |s.score c| ≤ 127 * ((s.chb.occupancy : Int) + 1) ∧
    127 * ((s.chb.occupancy : Int) + 1) ≤ 127 * ((s.cfg.H : Int) + 1) ∧
    127 * ((s.cfg.H : Int) + 1) ≤ 2 ^ (s.cfg.scoreW - 1) - 1 ∧
    (BitVec.ofInt s.cfg.scoreW (s.score c)).toInt = s.score c

/-! ### UPDATE -/

/-- R117, R124: where the captured branch was unconditional, UPDATE changes only PHASE, for both outcomes and every target. -/
def Obligations.UnconditionalUpdateResult : Prop :=
  ∀ (s : State) (taken : Bool) (target : Nat), target < 2 ^ s.cfg.addrW →
    s.faulted = false → s.phase = .awaitingUpdate → s.capCond = false →
    exec (.update taken target) s = .next
      { s with
        phase := .awaitingPredict
        responses := s.responses ++ [Response.encode s.cfg
          { err := false, faulted := false, faultCode := s.faultCode, phase := .awaitingPredict
            taken := false, score := 0, target := 0 }] }

/-- R121, R122, R124: where the captured branch was conditional, UPDATE consumes the token, pushes CAP_ADDR and the outcome, and
acknowledges; of the rest of the state only the weight table may change: no byte outside the cells of the captured branch (linear
addresses: log 3), and none at all where the gate is closed. -/
def Obligations.ConditionalUpdateResult : Prop :=
  ∀ (s : State) (taken : Bool) (target : Nat), target < 2 ^ s.cfg.addrW →
    s.faulted = false → s.phase = .awaitingUpdate → s.capCond = true →
    exec (.update taken target) s = .next
      { s with
        phase := .awaitingPredict, wt := s.trained taken, chb := s.chb.push s.capAddr, ghr := ghrPush s.ghr taken
        responses := s.responses ++ [Response.encode s.cfg
          { err := false, faulted := false, faultCode := s.faultCode, phase := .awaitingPredict
            taken := false, score := 0, target := 0 }] } ∧
    (∀ k, k ∉ (s.accessCells (s.capAddr.toNat % s.cfg.N)).map (Cell.address s.cfg) →
      (s.trained taken).read k = s.wt.read k) ∧
    (¬ 100 * |s.tokScore.toInt| < 214 * ((s.cfg.H : Int) + 1) + 2058 → s.tokTaken = taken → s.trained taken = s.wt)

/-- R88, R122: whether or not the gate is open, a conditional UPDATE pushes CAP_ADDR and the outcome: the branch stands in front of the
remembered branches, at most `H` of them are kept, and each older address stays paired with its own outcome. -/
def Obligations.ConditionalUpdateRecordsTheBranch : Prop :=
  ∀ (s t : State) (taken : Bool) (target : Nat),
    s.faulted = false → s.phase = .awaitingUpdate → s.capCond = true → exec (.update taken target) s = .next t →
    t.historyBits = ({ s with chb := s.chb.push s.capAddr, ghr := ghrPush s.ghr taken } : State).historyBits ∧
    t.history = ((s.capAddr.toNat, taken) :: s.history).take s.cfg.H ∧
    (t.chb.atAge 0).toNat = s.capAddr.toNat ∧ ghrBitAt t.ghr 0 = taken

/-- R97, R100, R118: where the prediction was right and not of low confidence, UPDATE leaves every byte of the weight table
unchanged. -/
def Obligations.ClosedGateKeepsEveryWeight : Prop :=
  ∀ (s t : State) (taken : Bool) (target : Nat), exec (.update taken target) s = .next t →
    ¬ 100 * |s.tokScore.toInt| < 214 * ((s.cfg.H : Int) + 1) + 2058 → s.tokTaken = taken →
    ∀ k, t.wt.read k = s.wt.read k

/-- R100, R119, R120, R121: where the gate is open, the bias cell and the cell of every history position below CHB_SIZE each take
exactly one saturating step in the direction the rules give, read from the history before the pushes; and every byte outside those
cells reads as before. -/
def Obligations.OpenGateTrainsExactlyTheVisitedCells : Prop :=
  ∀ (s : State) (taken : Bool) (target : Nat), s.wt.wf →
    s.faulted = false → s.phase = .awaitingUpdate → s.capCond = true →
    (100 * |s.tokScore.toInt| < 214 * ((s.cfg.H : Int) + 1) + 2058 ∨ s.tokTaken ≠ taken) →
    ∃ t, exec (.update taken target) s = .next t ∧
      let c := s.capAddr.toNat % s.cfg.N
      let bias : Cell := { ctx := c, row := 0, lane := 0 }
      t.wt.weight s.cfg bias
        = (if taken then min (s.wt.weight s.cfg bias + 1) 127 else max (s.wt.weight s.cfg bias - 1) (-127)) ∧
      (∀ i, i < s.chb.occupancy →
        let x : Cell := { ctx := c, row := (s.chb.atAge i).toNat % s.cfg.M, lane := i + 1 }
        t.wt.weight s.cfg x
          = if ghrBitAt s.ghr i = taken then min (s.wt.weight s.cfg x + 1) 127
            else max (s.wt.weight s.cfg x - 1) (-127)) ∧
      ∀ k, k ∉ (s.accessCells c).map (Cell.address s.cfg) → t.wt.read k = s.wt.read k

/-- R125, R132, R134: an UPDATE without an outstanding token is not executed; it raises fault 1 and changes nothing else. -/
def Obligations.UpdateWithoutPredictFaults : Prop :=
  ∀ (s : State) (taken : Bool) (target : Nat), s.faulted = false → s.phase = .awaitingPredict →
    exec (.update taken target) s = .next
      { s with
        faulted := true, faultCode := .updateWithoutPredict
        responses := s.responses ++ [Response.encode s.cfg
          { err := true, faulted := true, faultCode := .updateWithoutPredict, phase := .awaitingPredict
            taken := false, score := 0, target := 0 }] }

/-- R123: the target field is ignored: two UPDATE requests that agree on `OP` and `F` make the same step from every state. -/
def Obligations.UpdateTargetHasNoEffect : Prop :=
  ∀ (s : State) (w w' : BitVec s.cfg.reqW) (rest : List (PortEvent s.cfg.reqW)),
    w.toNat % 4 = 2 → w.toNat % 8 = w'.toNat % 8 →
    step { s with pending := .request w :: rest } = step { s with pending := .request w' :: rest }

/-- R127: an unconditional branch, in its PREDICT and its UPDATE together and for any outcome, leaves the weight table, the history
buffer and the history register as they were, and is predicted taken. -/
def Obligations.UnconditionalBranchLeavesTheStructures : Prop :=
  ∀ (s : State) (a : Nat) (taken : Bool) (target : Nat) (rest : List (PortEvent s.cfg.reqW)),
    a < 2 ^ s.cfg.addrW → target < 2 ^ s.cfg.addrW → s.faulted = false → s.phase = .awaitingPredict →
    s.pending = .request (encode s.cfg (.predict false a)) :: .request (encode s.cfg (.update taken target)) :: rest →
    ∃ t, runs 2 s t ∧ t.wt = s.wt ∧ t.historyBits = s.historyBits ∧ t.captured = (a, false, true, 0) ∧
      t.statusView = (.awaitingPredict, false, s.faultCode) ∧ t.pending.length = rest.length

/-! ### Faults (60_exceptions.md) -/

/-- R60, R132, R133: a request with a reserved opcode, whatever its `F` and `A`, raises fault 3 in either phase and changes nothing
else. -/
def Obligations.ReservedOpcodeFaults : Prop :=
  ∀ (s : State) (f : Bool) (a : Nat), s.faulted = false →
    let t : State :=
      { s with
        faulted := true, faultCode := .reservedOpcode
        responses := s.responses ++ [Response.encode s.cfg
          { err := true, faulted := true, faultCode := .reservedOpcode, phase := s.phase
            taken := false, score := 0, target := 0 }] }
    exec (.reservedOp00 f a) s = .next t ∧ exec (.reservedOp11 f a) s = .next t

/-- R130: while FAULTED = 1 no command executes, whatever it is: nothing changes, and the answer has ERR = 1; and only a reset
leaves this state. -/
def Obligations.FaultedBlockRefusesEveryCommand : Prop :=
  (∀ (s : State) (i : Instr), s.faulted = true →
    exec i s = .next
      { s with
        responses := s.responses ++ [Response.encode s.cfg
          { err := true, faulted := true, faultCode := s.faultCode, phase := s.phase
            taken := false, score := 0, target := 0 }] }) ∧
  ∀ s t : State, s.faulted = true → step s = .next t →
    (t.faulted = false ↔ ∃ rest, s.pending = PortEvent.rst :: rest)

/-- R26, R27, R137, R138: a fault is sticky and FAULT_CODE keeps the first code: along any run whose stream holds no reset, a faulted
block keeps its status, its structures and its captured record. -/
def Obligations.OnlyResetClearsAFault : Prop :=
  ∀ (n : Nat) (s t : State), s.faulted = true → (∀ e ∈ s.pending, e ≠ PortEvent.rst) → runs n s t →
    t.statusView = s.statusView ∧ t.wt = s.wt ∧ t.historyBits = s.historyBits ∧ t.captured = s.captured

/-- R36: apart from PREDICT and UPDATE writing PHASE, no command writes a flag as a side effect, and a command that writes FAULTED is
a fault entry: it sets FAULTED and a code, and leaves PHASE, the weights, the history and the captured record as they were. -/
def Obligations.FlagsAreWrittenOnlyAsTheRulesSay : Prop :=
  ∀ (s t : State) (i : Instr), exec i s = .next t →
    (t.phase ≠ s.phase →
      s.faulted = false ∧ t.faulted = false ∧
      ((∃ c a, i = .predict c a ∧ t.phase = .awaitingUpdate) ∨ ∃ k a, i = .update k a ∧ t.phase = .awaitingPredict)) ∧
    ((t.faulted, t.faultCode) ≠ (s.faulted, s.faultCode) →
      s.faulted = false ∧ t.faulted = true ∧ t.faultCode ≠ .none ∧ t.phase = s.phase ∧ t.wt = s.wt ∧
      t.historyBits = s.historyBits ∧ t.captured = s.captured)

/-- R42: the weight table is mutated only by training. If a command changes any byte of it, the command is the executed UPDATE of a
conditional branch whose gate is open, and the byte is one of the cells that branch visits. -/
def Obligations.OnlyTrainingChangesTheWeights : Prop :=
  ∀ (s t : State) (i : Instr) (k : Nat), exec i s = .next t → t.wt.read k ≠ s.wt.read k →
    s.faulted = false ∧ s.phase = .awaitingUpdate ∧ s.capCond = true ∧
    (∃ taken target, i = .update taken target ∧
      (100 * |s.tokScore.toInt| < 214 * ((s.cfg.H : Int) + 1) + 2058 ∨ s.tokTaken ≠ taken)) ∧
    k ∈ (s.accessCells (s.capAddr.toNat % s.cfg.N)).map (Cell.address s.cfg)

/-- R128: the protocol table: with FAULTED = 0, what each command does in each phase, and the phase after it. -/
def Obligations.ProtocolTable : Prop :=
  ∀ (s : State) (f : Bool) (a : Nat), s.faulted = false →
    (∃ t, exec (.predict f a) s = .next t ∧
      (s.phase = .awaitingPredict → t.statusView = (.awaitingUpdate, false, s.faultCode)) ∧
      (s.phase = .awaitingUpdate → t.statusView = (.awaitingUpdate, true, .predictWhilePending))) ∧
    (∃ t, exec (.update f a) s = .next t ∧
      (s.phase = .awaitingPredict → t.statusView = (.awaitingPredict, true, .updateWithoutPredict)) ∧
      (s.phase = .awaitingUpdate → t.statusView = (.awaitingPredict, false, s.faultCode)))

/-- R129, R155, R156: a host whose stream alternates PREDICT and UPDATE, with resets anywhere, never sees a fault; and a host that
breaks the alternation gets one. -/
def Obligations.AlternationIsExactlyFaultFreedom : Prop :=
  ∀ s : State, s.faulted = false →
    (alternates s.cfg s.phase s.pending = true ↔ ∀ (n : Nat) (t : State), runs n s t → t.ok)

/-! ### Reset and the invariant -/

/-- R30 (b), R32, R150: the invariant holds right after reset, in every configuration. Its first part, the canonical form of the table
(rising addresses, no entry 0), and the linear addresses of its second and fourth are the model's choice (log 3), and so is the
configuration of `State.reset` (log 1). -/
def Obligations.InvariantHoldsAtReset : Prop :=
  (∀ cfg : Config, (State.resetOf cfg).Inv) ∧ State.reset.Inv

/-- R30, R33, R104, R128: every step keeps the invariant: the canonical form of the table and the linear addresses it lists (the
model's choice, log 3: no rule of the spec), weights in `[-127,127]`, the unused bias
rows unwritten, zero beyond CHB_SIZE, the fault record consistent with the phase, and the outstanding token equal to what the state
predicts for the captured branch. -/
def Obligations.EveryStepKeepsTheInvariant : Prop :=
  ∀ s t : State, s.Inv → step s = .next t → t.Inv

/-- R33 (a), (b), R41: in every state of the invariant each cell that exists reads in `[-127,127]`, and the lane-0 cells of rows
other than 0 read 0. The invariant's form of the table is the model's choice (log 3). -/
def Obligations.WeightsReadInRange : Prop :=
  ∀ (s : State) (x : Cell), s.Inv → x.valid s.cfg →
    -127 ≤ s.wt.weight s.cfg x ∧ s.wt.weight s.cfg x ≤ 127 ∧
    (x.lane = 0 → x.row ≠ 0 → s.wt.weight s.cfg x = 0)

/-- R152: after reset, the first conditional PREDICT of any address scores 0 and predicts taken, and an UPDATE faults with
code 1. -/
def Obligations.FirstCommandAfterReset : Prop :=
  ∀ (cfg : Config) (a : Nat), a < 2 ^ cfg.addrW →
    (∃ t, exec (.predict true a) (State.resetOf cfg) = .next t ∧ t.captured = (a, true, true, 0) ∧
      t.statusView = (.awaitingUpdate, false, .none) ∧ t.responseWords = [0x30]) ∧
    (∀ taken, ∃ t, exec (.update taken a) (State.resetOf cfg) = .next t ∧
      t.statusView = (.awaitingPredict, true, .updateWithoutPredict) ∧ t.responseWords = [0x7])

/-! ### The structures, as components -/

/-- R76, R78, R79: the history buffer is a FIFO with overwrite: after any sequence of pushes into an empty buffer, `at(i)` is the
address pushed `i` pushes ago, or 0, and `size()` is the number of pushes up to the capacity. -/
def Obligations.HistoryBufferIsAFifo : Prop :=
  ∀ (w h : Nat) (as : List (BitVec w)) (i : Nat),
    let b := as.foldl Chb.push ({ e := Vector.replicate h 0, size := 0 } : Chb w h)
    b.atAge i = (if i < h then as.reverse[i]?.getD 0 else 0) ∧ b.occupancy = min as.length h

/-- R76, R77: one push: every entry moves one place up, the new address is entry 0, the size grows up to the capacity, and entries
beyond the size stay 0. -/
def Obligations.PushShiftsTheEntries : Prop :=
  ∀ (w h : Nat) (b : Chb w h) (a : BitVec w),
    (∀ k : Fin h, (b.push a).e[k.val] = if k.val = 0 then a else b.e[k.val - 1]) ∧
    (b.push a).occupancy = min (b.occupancy + 1) h ∧ (b.tailZero → (b.push a).tailZero)

/-- R80, R81: `popFront` returns the oldest address, clears its entry and keeps every younger one; on an empty buffer it returns 0
and changes nothing. -/
def Obligations.PopFrontRemovesTheOldest : Prop :=
  ∀ (w h : Nat) (b : Chb w h),
    (b.occupancy = 0 → b.popFront = (0, b)) ∧
    (0 < b.occupancy →
      b.popFront.1 = b.atAge (b.occupancy - 1) ∧ b.popFront.2.occupancy = b.occupancy - 1 ∧
      ∀ k : Fin h, b.popFront.2.e[k.val] = if k.val = b.occupancy - 1 then 0 else b.e[k.val])

/-- R83: the ring form gives the same result as the entry-per-age form for every primitive, under the abstraction R83 states. -/
def Obligations.RingFormRefinesTheBuffer : Prop :=
  ∀ (w h : Nat) (r : RingChb w h) (a : BitVec w) (i : Nat),
    (r.push a).toChb = r.toChb.push a ∧ r.atAge i = r.toChb.atAge i ∧
    r.popFront.1 = r.toChb.popFront.1 ∧ r.popFront.2.toChb = r.toChb.popFront.2 ∧
    r.size.val = r.toChb.occupancy ∧ r.toChb.tailZero

/-- R85, R86, R87, R88: the history register is a shift register of `H` bits: one push is the masked shift, and after any sequence of
pushes `bitAt(i)` is the outcome pushed `i` pushes ago for `i < H`, and 0 beyond. -/
def Obligations.HistoryRegisterIsAShiftRegister : Prop :=
  ∀ (h : Nat) (g : BitVec h) (o : Bool) (os : List Bool) (i : Nat),
    (ghrPush g o).toNat = (2 * g.toNat + o.toNat) % 2 ^ h ∧
    ghrBitAt g i = (if i < h then decide (g.toNat / 2 ^ i % 2 = 1) else false) ∧
    ghrBitAt (os.foldl ghrPush (0#h)) i = (if i < h then os.reverse[i]?.getD false else false)

/-- R93, R94: one training step of one cell: it saturates at 127 and -127, never gives -128, and changes no other cell. That the
canonical form of the table is kept, and what that form is, is the model's choice (log 3). -/
def Obligations.CellTrainSaturates : Prop :=
  ∀ (cfg : Config) (m : Memory) (x : Cell) (up : Bool), m.wf →
    (m.cellTrain cfg x up).weight cfg x
      = (if up then min (m.weight cfg x + 1) 127 else max (m.weight cfg x - 1) (-127)) ∧
    (m.cellTrain cfg x up).read (x.address cfg) ≠ 0x80#8 ∧
    (∀ k, k ≠ x.address cfg → (m.cellTrain cfg x up).read k = m.read k) ∧ (m.cellTrain cfg x up).wf

/-- R40, R41: the linear form gives every cell that exists an address of its own below `N·M·(H+1)`, and a canonical table is
determined by what its addresses read as. Which linear form, and the canonical form, are the model's choice (log 3). -/
def Obligations.WeightTableIsAnArrayOfCells : Prop :=
  (∀ (cfg : Config) (x y : Cell), x.valid cfg → y.valid cfg →
    x.address cfg < cfg.N * cfg.M * (cfg.H + 1) ∧ (x.address cfg = y.address cfg → x = y)) ∧
  (∀ m m' : Memory, m.wf → m'.wf → (∀ k, m.read k = m'.read k) → m = m')

/-- R102, R103: the cells one command visits exist and are pairwise distinct, one for each lane from 0 to CHB_SIZE, and the order
in which an UPDATE trains them does not change the result. -/
def Obligations.VisitedCellsAreDistinct : Prop :=
  ∀ (s : State) (c : Nat), c < s.cfg.N →
    (s.accessCells c).map Cell.lane = List.range (s.chb.occupancy + 1) ∧
    (∀ x ∈ s.accessCells c, x.valid s.cfg ∧ x.ctx = c) ∧
    ∀ (taken : Bool) (ts : List (Cell × Bool)), s.wt.wf → ts.Perm (s.trainTargets taken) →
      s.wt.trainAll s.cfg ts = s.wt.trainAll s.cfg (s.trainTargets taken)

/-- R14: the index registers' widths are `clog2` of their ranges, hold the ranges, and are the smallest that do. -/
def Obligations.IndexWidthsHoldTheirRanges : Prop :=
  ∀ (s : State) (a i : Nat),
    (∀ n, 1 ≤ n → n ≤ 2 ^ clog2 n ∧ ∀ k, n ≤ 2 ^ k → clog2 n ≤ k) ∧
    s.cfg.contextW = clog2 s.cfg.N ∧ s.cfg.rowW = clog2 s.cfg.M ∧ s.cfg.laneW = clog2 (s.cfg.H + 1) ∧
    s.cfg.positionW = clog2 s.cfg.H ∧ s.cfg.occupancyW = clog2 (s.cfg.H + 1) ∧
    contextOf s.cfg a < s.cfg.N ∧ s.rowAt i < s.cfg.M ∧ s.chb.occupancy ≤ s.cfg.H ∧
    contextOf s.cfg a < 2 ^ s.cfg.contextW ∧ s.rowAt i < 2 ^ s.cfg.rowW ∧ s.chb.occupancy < 2 ^ s.cfg.occupancyW ∧
    (i < s.chb.occupancy → i < 2 ^ s.cfg.positionW ∧ i + 1 < 2 ^ s.cfg.laneW)

/-- R143: instances are independent: a step of one changes no other, is the step it makes alone, and steps of two instances
commute. -/
def Obligations.InstancesAreIndependent : Prop :=
  ∀ (sys : List State) (j k : Nat), j ≠ k →
    (stepInstance k sys)[j]? = sys[j]? ∧
    (∀ s, sys[k]? = some s → ∃ t, step s = .next t ∧ (stepInstance k sys)[k]? = some t) ∧
    stepInstance j (stepInstance k sys) = stepInstance k (stepInstance j sys)

/-! ### What the host cannot see -/

/-- R22 to R25: no rule reads the captured record and the token while PHASE = 0: two blocks that differ only in them give the same
responses to every stream. -/
def Obligations.CaptureIsUnobservableWhileAwaitingPredict : Prop :=
  ∀ (s : State) (a : BitVec s.cfg.addrW) (c k : Bool) (x : BitVec s.cfg.scoreW) (n : Nat) (t t' : State),
    s.phase = .awaitingPredict → runs n s t →
    runs n { s with capAddr := a, capCond := c, tokTaken := k, tokScore := x } t' →
    t.responseWords = t'.responseWords

/-- R30, R31: the history beyond CHB_SIZE cannot be seen: two blocks whose buffers and registers agree on every position below the
occupancy give the same responses to every stream. -/
def Obligations.HistoryBeyondOccupancyIsUnobservable : Prop :=
  ∀ (s : State) (b : Chb s.cfg.addrW s.cfg.H) (g : BitVec s.cfg.H) (n : Nat) (t t' : State),
    b.size = s.chb.size → (∀ i, i < s.chb.occupancy → b.atAge i = s.chb.atAge i ∧ ghrBitAt g i = ghrBitAt s.ghr i) →
    runs n s t → runs n { s with chb := b, ghr := g } t' →
    t.responseWords = t'.responseWords

/-! ### Program notation -/

/-- R69 to R72: what `predict`, `update`, `cbr` and `ubr` lines assemble to, for every operand of ADDR_W bits. -/
def Obligations.LinesAssembleToTheirCommands : Prop :=
  ∀ (cfg : Config) (a : Nat) (f : Bool), a < 2 ^ cfg.addrW →
    let word := fun i : Instr => PortEvent.request (encode cfg i)
    assembleLine cfg (.predict a f) = some [word (.predict f a)] ∧
    assembleLine cfg (.update f a) = some [word (.update f a)] ∧
    assembleLine cfg (.cbr a f) = some [word (.predict true a), word (.update f 0)] ∧
    assembleLine cfg (.ubr a) = some [word (.predict false a), word (.update true 0)]

/-- R73: `.rep k … .endr` presents what the enclosed lines present, `k` times (that the enclosed lines may hold such blocks themselves
is the model's choice, log 6). -/
def Obligations.RepeatRepeatsTheEnclosedLines : Prop :=
  ∀ (cfg : Config) (k : Nat) (body : List AsmLine) (es : List (PortEvent cfg.reqW)),
    assembleLines cfg body [] [] = some es →
    assembleLines cfg (.rep k :: body ++ [.endr]) [] [] = some (List.replicate k es).flatten

/-- R69, R74: a response word `r` is listed as `-> resp 0x` and then hexadecimal digits, at least one, whose value in base 16 is `r`; and
the `0x` number is read back as `r`. -/
def Obligations.ListedResponseReadsBack : Prop :=
  ∀ (w : Nat) (r : BitVec w),
    ∃ ds, listResponse r = "-> resp 0x".toList ++ ds ∧ ds ≠ [] ∧ (∀ c ∈ ds, ∃ d, hexDigit c = some d ∧ d < 16) ∧
      digits 16 hexDigit ds 0 = some r.toNat ∧ parseNumber ('0' :: 'x' :: ds) = some r.toNat
end

