-- ==== Sys2Proof/Laws/History.lean ====
section
/-! SUPPORT. The history buffer and the history register: what each primitive makes of each reader. -/

namespace Sys2Proof.Machine

variable {w h : Nat}

theorem Chb.atAge_lt (b : Chb w h) {i : Nat} (hi : i < b.size.val) : b.atAge i = b.e[i]'(by omega) := by
  simp [Chb.atAge, hi]

theorem Chb.atAge_ge (b : Chb w h) {i : Nat} (hi : b.size.val ≤ i) : b.atAge i = 0 := by
  simp [Chb.atAge, Nat.not_lt.2 hi]

@[simp] theorem Chb.push_size (b : Chb w h) (a : BitVec w) : (b.push a).size.val = min (b.size.val + 1) h := rfl

@[simp] theorem Chb.push_occupancy (b : Chb w h) (a : BitVec w) : (b.push a).occupancy = min (b.occupancy + 1) h := rfl

theorem Chb.occupancy_le (b : Chb w h) : b.occupancy ≤ h := Nat.le_of_lt_succ b.size.isLt

/-- R76: entry `k` after a push. -/
theorem Chb.push_entry (b : Chb w h) (a : BitVec w) {k : Nat} (hk : k < h) :
    (b.push a).e[k] = if k = 0 then a else b.e[k - 1] := by
  simp [Chb.push]

/-- R76, R79: the newest address. -/
theorem Chb.push_atAge_zero (b : Chb w h) (a : BitVec w) (hh : 1 ≤ h) : (b.push a).atAge 0 = a := by
  rw [Chb.atAge_lt _ (by simp; omega), Chb.push_entry b a (by omega)]; simp

/-- R76, R79: every other address is one push older, and the oldest of a full buffer is gone. -/
theorem Chb.push_atAge_succ (b : Chb w h) (a : BitVec w) (i : Nat) :
    (b.push a).atAge (i + 1) = if i + 1 < h then b.atAge i else 0 := by
  by_cases hi : i + 1 < min (b.size.val + 1) h
  · rw [Chb.atAge_lt _ (by simpa using hi), Chb.push_entry b a (by omega), Chb.atAge_lt b (by omega)]
    simp [show i + 1 < h by omega]
  · rw [Chb.atAge_ge _ (Nat.not_lt.1 hi)]
    split
    · rw [Chb.atAge_ge b (by omega)]
    · rfl

/-- R77: a push keeps the entries beyond the occupancy at 0. -/
theorem Chb.push_tailEntry (b : Chb w h) (a : BitVec w) (ht : ∀ k : Fin h, b.size.val ≤ k.val → b.e[k.val] = 0)
    (k : Fin h) (hk : (b.push a).size.val ≤ k.val) : (b.push a).e[k.val] = 0 := by
  have := k.isLt
  simp only [Chb.push_size] at hk
  rw [Chb.push_entry b a k.isLt, if_neg (by omega)]
  exact ht ⟨k.val - 1, by omega⟩ (by show b.size.val ≤ k.val - 1; omega)

theorem ghrPush_bit (g : BitVec h) (o : Bool) (i : Nat) :
    ghrBitAt (ghrPush g o) i = if i < h then (if i = 0 then o else ghrBitAt g (i - 1)) else false := by
  unfold ghrBitAt ghrPush mask
  rw [BitVec.getLsbD_ofNat]
  by_cases hi : i < h
  · simp only [hi, decide_true, Bool.true_and, if_true, Nat.testBit_and, Nat.testBit_or, Nat.testBit_shiftLeft,
      Nat.testBit_two_pow_sub_one]
    cases i with
    | zero => cases o <;> simp
    | succ i => cases o <;> simp [BitVec.testBit_toNat, Nat.testBit_succ]
  · simp [hi]

/-- R85: the newest outcome. -/
theorem ghrPush_bit_zero (g : BitVec h) (o : Bool) (hh : 1 ≤ h) : ghrBitAt (ghrPush g o) 0 = o := by
  rw [ghrPush_bit, if_pos (by omega), if_pos rfl]

/-- R85: every other outcome is one push older. -/
theorem ghrPush_bit_succ (g : BitVec h) (o : Bool) (i : Nat) :
    ghrBitAt (ghrPush g o) (i + 1) = if i + 1 < h then ghrBitAt g i else false := by
  rw [ghrPush_bit]; simp

end Sys2Proof.Machine
end

