-- ==== Sys2Proof/Laws/Memory.lean ====
section
/-! SUPPORT. The weight-table RAM: read after write, the canonical form is kept, and canonical memories that read the same are
equal. -/

namespace Sys2Proof.Machine

theorem Memory.read_nil (a : Nat) : Memory.read [] a = Memory.unlisted := rfl

theorem Memory.read_cons (k : Nat) (v : Byte) (m : Memory) (a : Nat) :
    Memory.read ((k, v) :: m) a = if k = a then v else Memory.read m a := rfl

theorem Memory.read_of_not_listed {m : Memory} {a : Nat} (h : ∀ x ∈ m, x.1 ≠ a) : m.read a = Memory.unlisted := by
  induction m with
  | nil => rfl
  | cons x m ih =>
    obtain ⟨k, v⟩ := x
    have hx : k ≠ a := h (k, v) (by simp)
    simp only [Memory.read_cons, hx, if_false]
    exact ih fun y hy => h y (by simp [hy])

/-- A cell that reads as something other than the unlisted value is listed. -/
theorem Memory.listed_of_read_ne {m : Memory} {a : Nat} (h : m.read a ≠ Memory.unlisted) : (a, m.read a) ∈ m := by
  induction m with
  | nil => exact absurd rfl h
  | cons x m ih =>
    obtain ⟨k, v⟩ := x
    by_cases hk : k = a
    · simp [Memory.read_cons, hk]
    · simp only [Memory.read_cons, hk, if_false] at h ⊢
      exact List.mem_cons_of_mem _ (ih h)

theorem Memory.wf_tail {x : Host.Cell} {m : Memory} (h : Memory.wf (x :: m)) : Memory.wf m :=
  ⟨(List.pairwise_cons.1 h.1).2, fun y hy => h.2 y (by simp [hy])⟩

theorem Memory.wf_head_lt {x : Host.Cell} {m : Memory} (h : Memory.wf (x :: m)) : ∀ y ∈ m, x.1 < y.1 :=
  (List.pairwise_cons.1 h.1).1

theorem Memory.read_of_lt_head {m : Memory} {a : Nat} (h : ∀ x ∈ m, a < x.1) : m.read a = Memory.unlisted :=
  Memory.read_of_not_listed fun x hx => (Nat.ne_of_lt (h x hx)).symm

/-- A listed cell of a canonical memory reads as its entry. -/
theorem Memory.read_of_mem {m : Memory} (h : m.wf) {a : Nat} {v : Byte} (hm : (a, v) ∈ m) : m.read a = v := by
  induction m with
  | nil => simp at hm
  | cons x m ih =>
    obtain ⟨k, u⟩ := x
    rcases List.mem_cons.1 hm with he | ht
    · cases he; simp [Memory.read_cons]
    · have := Memory.wf_head_lt h _ ht
      simp only [Memory.read_cons, Nat.ne_of_lt this, if_false]
      exact ih (Memory.wf_tail h) ht

theorem Memory.read_cons_entry {m : Memory} {a : Nat} (b : Byte) (h : ∀ x ∈ m, a < x.1) :
    (Memory.cons a b m).read a = b := by
  unfold Memory.cons
  split
  · next hb => rw [Memory.read_of_lt_head h, hb]
  · simp [Memory.read_cons]

theorem Memory.read_cons_other {m : Memory} {a a' : Nat} (b : Byte) (h : a ≠ a') :
    (Memory.cons a b m).read a' = m.read a' := by
  unfold Memory.cons
  split
  · rfl
  · simp [Memory.read_cons, h]

/-- Reading the cell just written gives the value written. -/
theorem Memory.read_write_same {m : Memory} (h : m.wf) (a : Nat) (b : Byte) : (m.write a b).read a = b := by
  induction m with
  | nil => exact Memory.read_cons_entry b (by simp)
  | cons x m ih =>
    obtain ⟨k, v⟩ := x
    have hlt := Memory.wf_head_lt h
    unfold Memory.write
    split
    · next hak =>
      refine Memory.read_cons_entry b fun y hy => ?_
      rcases List.mem_cons.1 hy with rfl | hy
      · exact hak
      · exact Nat.lt_trans hak (hlt y hy)
    · split
      · next hak => subst hak; exact Memory.read_cons_entry b hlt
      · next hak =>
        simp only [Memory.read_cons, Ne.symm hak, if_false]
        exact ih (Memory.wf_tail h)

/-- A write leaves every other cell alone, in any memory. -/
theorem Memory.read_write_other (m : Memory) {a a' : Nat} (b : Byte) (h : a ≠ a') : (m.write a b).read a' = m.read a' := by
  induction m with
  | nil => exact Memory.read_cons_other b h
  | cons x m ih =>
    obtain ⟨k, v⟩ := x
    unfold Memory.write
    split
    · exact Memory.read_cons_other b h
    · split
      · next hak => subst hak; rw [Memory.read_cons_other b h]; simp [Memory.read_cons, h]
      · simp only [Memory.read_cons, ih]

/-- What a write lists was listed before, or is the cell written. -/
theorem Memory.mem_write {m : Memory} {a : Nat} {b : Byte} {x : Host.Cell} (h : x ∈ m.write a b) : x ∈ m ∨ x = (a, b) := by
  have key : ∀ m', x ∈ Memory.cons a b m' → x ∈ m' ∨ x = (a, b) := by
    intro m' h'
    unfold Memory.cons at h'
    split at h'
    · exact .inl h'
    · rcases List.mem_cons.1 h' with h' | h'
      · exact .inr h'
      · exact .inl h'
  induction m with
  | nil => exact key _ h
  | cons y m ih =>
    obtain ⟨k, v⟩ := y
    unfold Memory.write at h
    split at h
    · exact key _ h
    · split at h
      · exact (key _ h).imp (List.mem_cons_of_mem _) id
      · rcases List.mem_cons.1 h with rfl | h
        · exact .inl (by simp)
        · exact (ih h).imp (List.mem_cons_of_mem _) id

theorem Memory.cons_wf {m : Memory} (h : m.wf) {a : Nat} (b : Byte) (hlt : ∀ x ∈ m, a < x.1) : (Memory.cons a b m).wf := by
  unfold Memory.cons
  split
  · exact h
  · next hb =>
    refine ⟨List.pairwise_cons.2 ⟨hlt, h.1⟩, fun x hx => ?_⟩
    rcases List.mem_cons.1 hx with rfl | hx
    · exact hb
    · exact h.2 x hx

/-- The one memory operation keeps the canonical form. -/
theorem Memory.write_wf {m : Memory} (h : m.wf) (a : Nat) (b : Byte) : (m.write a b).wf := by
  induction m with
  | nil => exact Memory.cons_wf h b (by simp)
  | cons x m ih =>
    obtain ⟨k, v⟩ := x
    have hlt := Memory.wf_head_lt h
    unfold Memory.write
    split
    · next hak =>
      refine Memory.cons_wf h b fun y hy => ?_
      rcases List.mem_cons.1 hy with rfl | hy
      · exact hak
      · exact Nat.lt_trans hak (hlt y hy)
    · next hle =>
      split
      · next hak => subst hak; exact Memory.cons_wf (Memory.wf_tail h) b hlt
      · next hak =>
        refine ⟨List.pairwise_cons.2 ⟨fun y hy => ?_, (ih (Memory.wf_tail h)).1⟩, fun y hy => ?_⟩
        · rcases Memory.mem_write hy with hy | rfl
          · exact hlt y hy
          · show k < a; omega
        · rcases List.mem_cons.1 hy with rfl | hy
          · exact h.2 _ (by simp)
          · exact (ih (Memory.wf_tail h)).2 y hy

/-- Canonical memories that read the same everywhere are the same data. -/
theorem Memory.eq_of_read {m m' : Memory} (h : m.wf) (h' : m'.wf) (hr : ∀ a, m.read a = m'.read a) : m = m' := by
  have listed : ∀ {m m' : Memory}, m.wf → m'.wf → (∀ a, m.read a = m'.read a) → ∀ x ∈ m, x ∈ m' := by
    intro m m' h h' hr x hx
    have e := Memory.read_of_mem h hx
    have := Memory.listed_of_read_ne (m := m') (a := x.1) (by rw [← hr, e]; exact h.2 x hx)
    rwa [← hr, e] at this
  have nodup : ∀ {m : Memory}, m.wf → m.Nodup := fun h => h.1.imp fun hlt he => by subst he; exact Nat.lt_irrefl _ hlt
  refine List.Perm.eq_of_pairwise (le := fun x y : Host.Cell => x.1 < y.1) (fun a b _ _ hab hba => absurd hab (Nat.lt_asymm hba)) h.1 h'.1 ?_
  exact (List.perm_ext_iff_of_nodup (nodup h) (nodup h')).2 fun x => ⟨listed h h' hr x, listed h' h (fun a => (hr a).symm) x⟩

end Sys2Proof.Machine
end

