-- ==== Sys2Proof/Laws/Weights.lean ====
section
/-! SUPPORT. Weight cells: the linear address is injective on the cells that exist, and what one `cellTrain` does. -/

namespace Sys2Proof.Machine

theorem Cell.address_mod {cfg : Config} {x : Cell} (h : x.valid cfg) : x.address cfg % (cfg.H + 1) = x.lane := by
  unfold Cell.address
  rw [Nat.mul_comm, Nat.mul_add_mod, Nat.mod_eq_of_lt h.2.2]

theorem Cell.address_div {cfg : Config} {x : Cell} (h : x.valid cfg) :
    x.address cfg / (cfg.H + 1) = x.ctx * cfg.M + x.row := by
  unfold Cell.address
  rw [Nat.mul_comm, Nat.mul_add_div (Nat.succ_pos _), Nat.div_eq_of_lt h.2.2, Nat.add_zero]

theorem Cell.address_row {cfg : Config} {x : Cell} (h : x.valid cfg) :
    x.address cfg / (cfg.H + 1) % cfg.M = x.row := by
  rw [Cell.address_div h, Nat.mul_comm, Nat.mul_add_mod, Nat.mod_eq_of_lt h.2.1]

/-- R40: no two cells share a linear address. -/
theorem Cell.address_injective {cfg : Config} {x y : Cell} (hx : x.valid cfg) (hy : y.valid cfg)
    (h : x.address cfg = y.address cfg) : x = y := by
  have hlane : x.lane = y.lane := by rw [← Cell.address_mod hx, ← Cell.address_mod hy, h]
  have hrow : x.row = y.row := by rw [← Cell.address_row hx, ← Cell.address_row hy, h]
  have hctx : x.ctx * cfg.M + x.row = y.ctx * cfg.M + y.row := by
    rw [← Cell.address_div hx, ← Cell.address_div hy, h]
  have : x.ctx * cfg.M = y.ctx * cfg.M := by omega
  have : x.ctx = y.ctx := Nat.eq_of_mul_eq_mul_right cfg.M_pos this
  cases x; cases y; simp_all

theorem Cell.address_lt {cfg : Config} {x : Cell} (h : x.valid cfg) : x.address cfg < cfg.cells := by
  obtain ⟨h1, h2, h3⟩ := h
  unfold Cell.address Config.cells
  have a : x.ctx * cfg.M + x.row < cfg.N * cfg.M := by
    calc x.ctx * cfg.M + x.row < x.ctx * cfg.M + cfg.M := by omega
      _ = (x.ctx + 1) * cfg.M := by ring
      _ ≤ cfg.N * cfg.M := Nat.mul_le_mul_right _ h1
  calc (x.ctx * cfg.M + x.row) * (cfg.H + 1) + x.lane
      < (x.ctx * cfg.M + x.row) * (cfg.H + 1) + (cfg.H + 1) := by omega
    _ = (x.ctx * cfg.M + x.row + 1) * (cfg.H + 1) := by ring
    _ ≤ cfg.N * cfg.M * (cfg.H + 1) := Nat.mul_le_mul_right _ a

/-- R93, R94: whatever the cell held, one step leaves it in `[-127, 127]`. -/
theorem trainStep_range (b : Byte) (up : Bool) : -127 ≤ trainStep b.toInt up ∧ trainStep b.toInt up ≤ 127 := by
  have h1 := BitVec.le_toInt b
  have h2 := BitVec.toInt_lt (x := b)
  unfold trainStep wMin wMax
  cases up <;> simp <;> omega

theorem ofInt_eight_toInt {v : Int} (h : -127 ≤ v ∧ v ≤ 127) : (BitVec.ofInt 8 v).toInt = v := by
  rw [BitVec.toInt_ofInt]
  simp only [Int.bmod]
  omega

/-- R93: what the trained cell holds afterwards. -/
theorem Memory.weight_cellTrain_same {cfg : Config} {m : Memory} (h : m.wf) (x : Cell) (up : Bool) :
    (m.cellTrain cfg x up).weight cfg x = trainStep (m.weight cfg x) up := by
  unfold Memory.cellTrain Memory.setWeight Memory.weight
  rw [Memory.read_write_same h, ofInt_eight_toInt (trainStep_range _ up)]

theorem Memory.read_cellTrain_other {cfg : Config} (m : Memory) {x : Cell} {a : Nat} (up : Bool)
    (h : x.address cfg ≠ a) : (m.cellTrain cfg x up).read a = m.read a :=
  Memory.read_write_other m _ h

theorem Memory.weight_cellTrain_other {cfg : Config} (m : Memory) {x y : Cell} (up : Bool)
    (hx : x.valid cfg) (hy : y.valid cfg) (h : x ≠ y) : (m.cellTrain cfg x up).weight cfg y = m.weight cfg y := by
  unfold Memory.weight
  rw [Memory.read_cellTrain_other m up fun e => h (Cell.address_injective hx hy e)]

theorem Memory.cellTrain_wf {cfg : Config} {m : Memory} (h : m.wf) (x : Cell) (up : Bool) :
    (m.cellTrain cfg x up).wf := Memory.write_wf h _ _

/-- What a trained memory lists. -/
theorem Memory.mem_cellTrain {cfg : Config} {m : Memory} {x : Cell} {up : Bool} {y : Host.Cell}
    (h : y ∈ m.cellTrain cfg x up) : y ∈ m ∨ (y.1 = x.address cfg ∧ y.2 ≠ 0x80#8) := by
  rcases Memory.mem_write h with h | rfl
  · exact .inl h
  · refine .inr ⟨rfl, fun e => ?_⟩
    have := trainStep_range (m.read (x.address cfg)) up
    have e' := congrArg BitVec.toInt e
    simp only [Memory.weight, ofInt_eight_toInt this] at e'
    rw [e'] at this
    revert this; decide

/-- R11: in a memory without the pattern `0x80` every weight is in range. -/
theorem Memory.weight_range {cfg : Config} {m : Memory} (h : ∀ x ∈ m, x.2 ≠ 0x80#8) (x : Cell) :
    -127 ≤ m.weight cfg x ∧ m.weight cfg x ≤ 127 := by
  unfold Memory.weight
  have hne : m.read (x.address cfg) ≠ 0x80#8 := by
    by_cases hu : m.read (x.address cfg) = Memory.unlisted
    · rw [hu]; decide
    · exact h _ (Memory.listed_of_read_ne hu)
  have h1 := BitVec.le_toInt (m.read (x.address cfg))
  have h2 := BitVec.toInt_lt (x := m.read (x.address cfg))
  have h3 : (m.read (x.address cfg)).toInt ≠ -128 := fun e => hne (BitVec.eq_of_toInt_eq (by rw [e]; decide))
  omega

end Sys2Proof.Machine
end

