-- ==== Sys2Proof/Laws/Accumulator.lean ====
section
/-! SUPPORT. The cells a command visits, the bound of the score and the width that holds it, and what the training of one UPDATE
does to the weight table. -/

namespace Sys2Proof.Machine

theorem contextOf_lt (cfg : Config) (a : Nat) : contextOf cfg a < cfg.N := Nat.mod_lt _ cfg.N_pos

theorem State.rowAt_lt (s : State) (i : Nat) : s.rowAt i < s.cfg.M := Nat.mod_lt _ s.cfg.M_pos

theorem State.mem_positions (s : State) (i : Nat) : i ∈ s.positions ↔ i < s.chb.occupancy := by
  simp [State.positions]

theorem biasCell_valid (cfg : Config) {c : Nat} (h : c < cfg.N) : (biasCell c).valid cfg :=
  ⟨h, cfg.M_pos, Nat.succ_pos _⟩

theorem State.historyCell_valid (s : State) {c i : Nat} (h : c < s.cfg.N) (hi : i < s.chb.occupancy) :
    (s.historyCell c i).valid s.cfg :=
  ⟨h, s.rowAt_lt i, Nat.succ_lt_succ (Nat.lt_of_lt_of_le hi s.chb.occupancy_le)⟩

/-- R41: every cell a command visits exists. -/
theorem State.accessCells_valid (s : State) {c : Nat} (h : c < s.cfg.N) : ∀ x ∈ s.accessCells c, x.valid s.cfg := by
  intro x hx
  rcases List.mem_cons.1 hx with rfl | hx
  · exact biasCell_valid _ h
  · obtain ⟨i, hi, rfl⟩ := List.mem_map.1 hx
    exact s.historyCell_valid h ((s.mem_positions i).1 hi)

/-- R102, R103: the cells one command visits are pairwise distinct. -/
theorem State.accessCells_nodup (s : State) (c : Nat) : (s.accessCells c).Nodup := by
  refine List.nodup_cons.2 ⟨fun hx => ?_, ?_⟩
  · obtain ⟨i, -, he⟩ := List.mem_map.1 hx
    simp [State.historyCell, biasCell] at he
  · exact List.nodup_range.map fun i j he => by simp [State.historyCell] at he; exact he.2

theorem State.trainTargets_cells (s : State) (taken : Bool) :
    (s.trainTargets taken).map Prod.fst = s.accessCells (contextOf s.cfg s.capAddr.toNat) := by
  simp [State.trainTargets, State.accessCells, Function.comp_def]

/-! ### The score -/

theorem State.term_range (s : State) (h : ∀ x ∈ s.wt, x.2 ≠ 0x80#8) (c i : Nat) : -127 ≤ s.term c i ∧ s.term c i ≤ 127 := by
  have := Memory.weight_range (cfg := s.cfg) h (s.historyCell c i)
  unfold State.term signOf
  split <;> omega

theorem sum_range {l : List Int} (h : ∀ v ∈ l, -127 ≤ v ∧ v ≤ 127) : -(127 * l.length) ≤ l.sum ∧ l.sum ≤ 127 * l.length := by
  induction l with
  | nil => simp
  | cons v l ih =>
    have h1 := h v (by simp)
    have h2 := ih fun u hu => h u (by simp [hu])
    simp only [List.sum_cons, List.length_cons]
    push_cast
    omega

/-- R107: the score of a state whose weights are in range. -/
theorem State.score_range (s : State) (h : ∀ x ∈ s.wt, x.2 ≠ 0x80#8) (c : Nat) :
    -(127 * (s.chb.occupancy + 1 : Int)) ≤ s.score c ∧ s.score c ≤ 127 * (s.chb.occupancy + 1) := by
  have hb := Memory.weight_range (cfg := s.cfg) h (biasCell c)
  have hs := sum_range (l := s.positions.map (s.term c)) (by
    intro v hv
    obtain ⟨i, -, rfl⟩ := List.mem_map.1 hv
    exact s.term_range h c i)
  simp only [List.length_map, State.positions, List.length_range] at hs
  unfold State.score State.positions
  omega

/-- R12: the largest score is below the sign bit of a SCORE_W-bit register. -/
theorem scoreW_holds (cfg : Config) : 127 * (cfg.H + 1) < 2 ^ (cfg.scoreW - 1) := by
  unfold Config.scoreW bitlen
  rw [if_neg (by omega)]
  exact Nat.lt_log2_self

theorem ofInt_toInt {w : Nat} {v : Int} (hw : 1 ≤ w) (h1 : -(2 ^ (w - 1) : Int) ≤ v) (h2 : v < 2 ^ (w - 1)) :
    (BitVec.ofInt w v).toInt = v := by
  rw [BitVec.toInt_ofInt]
  have e : (2 ^ w : Nat) = 2 * 2 ^ (w - 1) := by
    rw [← Nat.pow_succ']; congr 1; omega
  have h1' : -((2 ^ (w - 1) : Nat) : Int) ≤ v := by push_cast; exact h1
  have h2' : v < ((2 ^ (w - 1) : Nat) : Int) := by push_cast; exact h2
  rw [e]
  generalize 2 ^ (w - 1) = p at h1' h2'
  refine Int.bmod_eq_of_le_mul_two ?_ ?_ <;> push_cast <;> omega

/-- R107: TOK_SCORE holds the score exactly. -/
theorem State.score_stored (s : State) (h : ∀ x ∈ s.wt, x.2 ≠ 0x80#8) (c : Nat) :
    (BitVec.ofInt s.cfg.scoreW (s.score c)).toInt = s.score c := by
  have hr := s.score_range h c
  have ho := s.chb.occupancy_le
  have hw : ((127 * (s.cfg.H + 1) : Nat) : Int) < ((2 ^ (s.cfg.scoreW - 1) : Nat) : Int) :=
    Int.ofNat_lt.2 (scoreW_holds s.cfg)
  push_cast at hw
  have : (s.chb.occupancy : Int) ≤ s.cfg.H := by exact_mod_cast ho
  refine ofInt_toInt (by unfold Config.scoreW; omega) ?_ ?_ <;> omega

/-! ### The training of one UPDATE -/

theorem Memory.trainAll_nil (cfg : Config) (m : Memory) : m.trainAll cfg [] = m := rfl

theorem Memory.trainAll_cons (cfg : Config) (m : Memory) (t : Cell × Bool) (ts : List (Cell × Bool)) :
    m.trainAll cfg (t :: ts) = (m.cellTrain cfg t.1 t.2).trainAll cfg ts := rfl

theorem Memory.trainAll_wf {cfg : Config} {m : Memory} (h : m.wf) (ts : List (Cell × Bool)) : (m.trainAll cfg ts).wf := by
  induction ts generalizing m with
  | nil => exact h
  | cons t ts ih => exact ih (Memory.cellTrain_wf h _ _)

/-- Training reaches no other address, in any memory. -/
theorem Memory.read_trainAll_other {cfg : Config} (m : Memory) {ts : List (Cell × Bool)} {a : Nat}
    (h : ∀ t ∈ ts, t.1.address cfg ≠ a) : (m.trainAll cfg ts).read a = m.read a := by
  induction ts generalizing m with
  | nil => rfl
  | cons t ts ih =>
    rw [Memory.trainAll_cons, ih _ fun u hu => h u (by simp [hu]), Memory.read_cellTrain_other _ _ (h t (by simp))]

/-- R103: each of the distinct cells of one UPDATE takes exactly one step. -/
theorem Memory.weight_trainAll {cfg : Config} {m : Memory} (h : m.wf) {ts : List (Cell × Bool)}
    (hv : ∀ t ∈ ts, t.1.valid cfg) (hn : (ts.map Prod.fst).Nodup) {x : Cell} {up : Bool} (hx : (x, up) ∈ ts) :
    (m.trainAll cfg ts).weight cfg x = trainStep (m.weight cfg x) up := by
  induction ts generalizing m with
  | nil => simp at hx
  | cons t ts ih =>
    have hn' : t.1 ∉ ts.map Prod.fst ∧ (ts.map Prod.fst).Nodup := List.nodup_cons.1 hn
    rw [Memory.trainAll_cons]
    rcases List.mem_cons.1 hx with he | hx
    · subst he
      rw [show Memory.weight cfg (Memory.trainAll cfg (m.cellTrain cfg x up) ts) x = (m.cellTrain cfg x up).weight cfg x by
        unfold Memory.weight
        rw [Memory.read_trainAll_other]
        intro u hu e
        have := Cell.address_injective (hv u (by simp [hu])) (hv (x, up) (by simp)) e
        exact hn'.1 (List.mem_map.2 ⟨u, hu, this⟩)]
      exact Memory.weight_cellTrain_same h x up
    · rw [ih (Memory.cellTrain_wf h _ _) (fun u hu => hv u (by simp [hu])) hn'.2 hx]
      congr 1
      refine Memory.weight_cellTrain_other m _ (hv t (by simp)) (hv _ (List.mem_cons_of_mem _ hx)) fun e => ?_
      exact hn'.1 (List.mem_map.2 ⟨(x, up), hx, e.symm⟩)

/-- What a trained memory lists. -/
theorem Memory.mem_trainAll {cfg : Config} {m : Memory} {ts : List (Cell × Bool)} {y : Host.Cell}
    (h : y ∈ m.trainAll cfg ts) : y ∈ m ∨ ((∃ t ∈ ts, y.1 = t.1.address cfg) ∧ y.2 ≠ 0x80#8) := by
  induction ts generalizing m with
  | nil => exact .inl h
  | cons t ts ih =>
    rcases ih h with h | ⟨⟨u, hu, e⟩, hb⟩
    · exact (Memory.mem_cellTrain h).imp id fun ⟨e, hb⟩ => ⟨⟨t, by simp, e⟩, hb⟩
    · exact .inr ⟨⟨u, by simp [hu], e⟩, hb⟩

/-- R97, R98: the gate of one UPDATE. -/
theorem State.trains_iff (s : State) (taken : Bool) :
    s.trains taken = true ↔
      100 * |s.tokScore.toInt| < 214 * ((s.cfg.H : Int) + 1) + 2058 ∨ s.tokTaken ≠ taken := by
  unfold State.trains trainGate lowConfidence mispredicted theta100
  rw [Bool.or_eq_true, decide_eq_true_iff, bne_iff_ne, Int.abs_eq_natAbs]
  refine or_congr ?_ Iff.rfl
  omega

/-- R117 to R120: the table after an UPDATE differs from the table before it only in the cells the captured branch visits. -/
theorem State.read_trained_other (s : State) (taken : Bool) {k : Nat}
    (h : k ∉ (s.accessCells (contextOf s.cfg s.capAddr.toNat)).map (Cell.address s.cfg)) :
    (s.trained taken).read k = s.wt.read k := by
  unfold State.trained
  split
  · refine Memory.read_trainAll_other _ fun t ht e => h ?_
    rw [← e, ← s.trainTargets_cells taken]
    exact List.mem_map_of_mem (List.mem_map_of_mem ht)
  · rfl

/-- R100: where the gate is closed the table is the one before. -/
theorem State.trained_closed {s : State} {taken : Bool} (h : s.trains taken = false) : s.trained taken = s.wt := by
  simp [State.trained, h]

theorem State.trainTargets_valid (s : State) (taken : Bool) : ∀ t ∈ s.trainTargets taken, t.1.valid s.cfg := by
  intro t ht
  refine s.accessCells_valid (contextOf_lt _ s.capAddr.toNat) _ ?_
  rw [← s.trainTargets_cells taken]
  exact List.mem_map_of_mem ht

theorem State.trainTargets_nodup (s : State) (taken : Bool) : ((s.trainTargets taken).map Prod.fst).Nodup := by
  rw [s.trainTargets_cells]
  exact s.accessCells_nodup _

theorem State.trained_wf {s : State} (h : s.wt.wf) (taken : Bool) : (s.trained taken).wf := by
  unfold State.trained
  split
  · exact Memory.trainAll_wf h _
  · exact h

end Sys2Proof.Machine
end

