-- ==== Sys2Proof/Laws/Coding.lean ====
section
/-! SUPPORT. The fields of a request word and of a response word. -/

namespace Sys2Proof

theorem requestOp_toNat (cfg : Config) (w : BitVec cfg.reqW) : (requestOp cfg w).toNat = w.toNat % 4 := by
  simp [requestOp, BitVec.extractLsb'_toNat]

theorem requestF_eq (cfg : Config) (w : BitVec cfg.reqW) : requestF cfg w = decide (w.toNat / 4 % 2 = 1) := by
  rw [requestF, ← BitVec.testBit_toNat, Nat.testBit_eq_decide_div_mod_eq]

theorem requestA_eq (cfg : Config) (w : BitVec cfg.reqW) : requestA cfg w = w.toNat / 8 := by
  have h : w.toNat < 2 ^ (cfg.addrW + 3) := w.isLt
  rw [requestA, BitVec.extractLsb'_toNat, Nat.shiftRight_eq_div_pow]
  refine Nat.mod_eq_of_lt ?_
  rw [Nat.div_lt_iff_lt_mul (by decide)]
  rwa [Nat.pow_add] at h

theorem encode_toNat (cfg : Config) (i : Instr) :
    (encode cfg i).toNat = (i.addr % 2 ^ cfg.addrW * 2 + i.flag.toNat) * 4 + i.opcode.toNat := by
  have h2 := i.opcode.isLt
  show (BitVec.ofNat cfg.addrW i.addr ++ BitVec.ofBool i.flag ++ i.opcode).toNat = _
  rw [BitVec.toNat_append, BitVec.toNat_append, ← Nat.shiftLeft_add_eq_or_of_lt h2,
    ← Nat.shiftLeft_add_eq_or_of_lt (BitVec.isLt _)]
  simp [Nat.shiftLeft_eq]

theorem bytesToNat_natToBytes (n w : Nat) (h : w < 256 ^ n) : bytesToNat (natToBytes n w) = w := by
  induction n generalizing w with
  | zero => simp at h; simp [natToBytes, bytesToNat, h]
  | succ n ih =>
    rw [natToBytes, bytesToNat, ih (w / 256) (by rw [Nat.div_lt_iff_lt_mul (by decide), ← Nat.pow_succ]; exact h)]
    simp [BitVec.toNat_ofNat]
    omega

theorem natToBytes_length (n w : Nat) : (natToBytes n w).length = n := by
  induction n generalizing w with
  | zero => rfl
  | succ n ih => simp [natToBytes, ih]

theorem wordToBytes_length {n : Nat} (v : BitVec n) : (wordToBytes v).length = wordBytes n := natToBytes_length _ _

/-- R45: a word of any width carried as bytes is read back as the same word. -/
theorem wordOfBytes_wordToBytes {n : Nat} (v : BitVec n) : wordOfBytes n (wordToBytes v) = .ok v := by
  have hv : v.toNat < 256 ^ wordBytes n := by
    rw [show (256 : Nat) = 2 ^ 8 from rfl, ← Nat.pow_mul]
    exact Nat.lt_of_lt_of_le v.isLt (Nat.pow_le_pow_right (by decide) (by unfold wordBytes; omega))
  have e : bytesToNat (wordToBytes v) = v.toNat := bytesToNat_natToBytes _ _ hv
  rw [wordOfBytes, if_pos (wordToBytes_length v), e, if_pos v.isLt, BitVec.ofNat_toNat, BitVec.setWidth_eq]

/-- R45: byte `k` holds bits `[8k+7:8k]`. -/
theorem natToBytes_getElem? (n w : Nat) {k : Nat} (hk : k < n) :
    (natToBytes n w)[k]?.map BitVec.toNat = some (w / 256 ^ k % 256) := by
  induction n generalizing w k with
  | zero => omega
  | succ n ih =>
    cases k with
    | zero => simp [natToBytes]
    | succ k =>
      rw [natToBytes, List.getElem?_cons_succ, ih (w / 256) (by omega), Nat.div_div_eq_div_mul, Nat.pow_succ']

namespace Machine

theorem FaultCode.ofBits_bits (c : FaultCode) : FaultCode.ofBits c.bits = c := by cases c <;> decide

theorem Phase.ofBit_bit (p : Phase) : Phase.ofBit p.bit = p := by cases p <;> rfl

/-- R63: the response word as a sum of its shifted fields. -/
theorem Response.encode_toNat (cfg : Config) (r : Response) :
    (r.encode cfg).toNat
      = r.err.toNat + 2 * r.faulted.toNat + 4 * r.faultCode.bits.toNat + 16 * r.phase.bit.toNat + 32 * r.taken.toNat
        + 64 * (BitVec.ofInt cfg.scoreW r.score).toNat
        + 64 * 2 ^ cfg.scoreW * (r.target % 2 ^ cfg.addrW) := by
  show (BitVec.ofNat cfg.addrW r.target ++ BitVec.ofInt cfg.scoreW r.score ++ BitVec.ofBool r.taken
    ++ BitVec.ofBool r.phase.bit ++ r.faultCode.bits ++ BitVec.ofBool r.faulted ++ BitVec.ofBool r.err).toNat = _
  have hx := (BitVec.ofInt cfg.scoreW r.score).isLt
  simp only [BitVec.toNat_append]
  rw [← Nat.shiftLeft_add_eq_or_of_lt hx, ← Nat.shiftLeft_add_eq_or_of_lt (BitVec.isLt (BitVec.ofBool r.taken)),
    ← Nat.shiftLeft_add_eq_or_of_lt (BitVec.isLt (BitVec.ofBool r.phase.bit)),
    ← Nat.shiftLeft_add_eq_or_of_lt (BitVec.isLt r.faultCode.bits),
    ← Nat.shiftLeft_add_eq_or_of_lt (BitVec.isLt (BitVec.ofBool r.faulted)),
    ← Nat.shiftLeft_add_eq_or_of_lt (BitVec.isLt (BitVec.ofBool r.err))]
  simp only [Nat.shiftLeft_eq, BitVec.toNat_ofNat, BitVec.toNat_ofBool]
  ring

end Machine

end Sys2Proof
end

