-- ==== Sys2Proof/Laws/PerInstr.lean ====
section
/-! SUPPORT. Per command: the three fields of its encoding, read back (30_encoding.md R56 to R62). -/

namespace Sys2Proof.Laws

namespace RequestFields

/-- The encoding of a well-formed command holds its opcode, its flag and its operand. -/
def Statement (i : Instr) : Prop :=
  ∀ cfg : Config, i.wf cfg = true →
    requestOp cfg (encode cfg i) = i.opcode ∧ requestF cfg (encode cfg i) = i.flag ∧ requestA cfg (encode cfg i) = i.addr

theorem of_fields (i : Instr) : Statement i := by
  intro cfg h
  have e := encode_toNat cfg i
  rw [Nat.mod_eq_of_lt (show i.addr < 2 ^ cfg.addrW by simpa [Instr.wf] using h)] at e
  have ho := i.opcode.isLt
  have hf := Bool.toNat_lt i.flag
  refine ⟨BitVec.eq_of_toNat_eq ?_, ?_, ?_⟩
  · rw [requestOp_toNat, e]; omega
  · rw [requestF_eq, e]
    cases i.flag <;> simp <;> omega
  · rw [requestA_eq, e]; omega

theorem predict (c : Bool) (a : Nat) : Statement (.predict c a) := of_fields _
theorem update (t : Bool) (a : Nat) : Statement (.update t a) := of_fields _
theorem reservedOp00 (f : Bool) (a : Nat) : Statement (.reservedOp00 f a) := of_fields _
theorem reservedOp11 (f : Bool) (a : Nat) : Statement (.reservedOp11 f a) := of_fields _

end RequestFields

end Sys2Proof.Laws
end

