-- ==== Sys2Proof/Laws/State.lean ====
section
/-! SUPPORT. What each update of State does to each field: one lemma per field per update, so that no proof unfolds a record update. -/

namespace Sys2Proof.Machine

/-! ### respond -/

@[simp] theorem State.respond_cfg (s : State) (err taken : Bool) (score : Int) :
    (s.respond err taken score).cfg = s.cfg := rfl
@[simp] theorem State.respond_phase (s : State) (err taken : Bool) (score : Int) :
    (s.respond err taken score).phase = s.phase := rfl
@[simp] theorem State.respond_capAddr (s : State) (err taken : Bool) (score : Int) :
    (s.respond err taken score).capAddr = s.capAddr := rfl
@[simp] theorem State.respond_capCond (s : State) (err taken : Bool) (score : Int) :
    (s.respond err taken score).capCond = s.capCond := rfl
@[simp] theorem State.respond_tokTaken (s : State) (err taken : Bool) (score : Int) :
    (s.respond err taken score).tokTaken = s.tokTaken := rfl
@[simp] theorem State.respond_tokScore (s : State) (err taken : Bool) (score : Int) :
    (s.respond err taken score).tokScore = s.tokScore := rfl
@[simp] theorem State.respond_faulted (s : State) (err taken : Bool) (score : Int) :
    (s.respond err taken score).faulted = s.faulted := rfl
@[simp] theorem State.respond_faultCode (s : State) (err taken : Bool) (score : Int) :
    (s.respond err taken score).faultCode = s.faultCode := rfl
@[simp] theorem State.respond_chb (s : State) (err taken : Bool) (score : Int) :
    (s.respond err taken score).chb = s.chb := rfl
@[simp] theorem State.respond_ghr (s : State) (err taken : Bool) (score : Int) :
    (s.respond err taken score).ghr = s.ghr := rfl
@[simp] theorem State.respond_wt (s : State) (err taken : Bool) (score : Int) :
    (s.respond err taken score).wt = s.wt := rfl
@[simp] theorem State.respond_pending (s : State) (err taken : Bool) (score : Int) :
    (s.respond err taken score).pending = s.pending := rfl
@[simp] theorem State.respond_responses (s : State) (err taken : Bool) (score : Int) :
    (s.respond err taken score).responses = s.responses ++ [Response.encode s.cfg { err := err, faulted := s.faulted, faultCode := s.faultCode, phase := s.phase, taken := taken, score := score, target := 0 }] := rfl

/-! ### refuse -/

@[simp] theorem State.refuse_cfg (s : State) :
    (s.refuse).cfg = s.cfg := rfl
@[simp] theorem State.refuse_phase (s : State) :
    (s.refuse).phase = s.phase := rfl
@[simp] theorem State.refuse_capAddr (s : State) :
    (s.refuse).capAddr = s.capAddr := rfl
@[simp] theorem State.refuse_capCond (s : State) :
    (s.refuse).capCond = s.capCond := rfl
@[simp] theorem State.refuse_tokTaken (s : State) :
    (s.refuse).tokTaken = s.tokTaken := rfl
@[simp] theorem State.refuse_tokScore (s : State) :
    (s.refuse).tokScore = s.tokScore := rfl
@[simp] theorem State.refuse_faulted (s : State) :
    (s.refuse).faulted = s.faulted := rfl
@[simp] theorem State.refuse_faultCode (s : State) :
    (s.refuse).faultCode = s.faultCode := rfl
@[simp] theorem State.refuse_chb (s : State) :
    (s.refuse).chb = s.chb := rfl
@[simp] theorem State.refuse_ghr (s : State) :
    (s.refuse).ghr = s.ghr := rfl
@[simp] theorem State.refuse_wt (s : State) :
    (s.refuse).wt = s.wt := rfl
@[simp] theorem State.refuse_pending (s : State) :
    (s.refuse).pending = s.pending := rfl
@[simp] theorem State.refuse_responses (s : State) :
    (s.refuse).responses = s.responses ++ [Response.encode s.cfg { err := true, faulted := s.faulted, faultCode := s.faultCode, phase := s.phase, taken := false, score := 0, target := 0 }] := rfl

/-! ### raiseFault -/

@[simp] theorem State.raiseFault_cfg (s : State) (code : FaultCode) :
    (s.raiseFault code).cfg = s.cfg := rfl
@[simp] theorem State.raiseFault_phase (s : State) (code : FaultCode) :
    (s.raiseFault code).phase = s.phase := rfl
@[simp] theorem State.raiseFault_capAddr (s : State) (code : FaultCode) :
    (s.raiseFault code).capAddr = s.capAddr := rfl
@[simp] theorem State.raiseFault_capCond (s : State) (code : FaultCode) :
    (s.raiseFault code).capCond = s.capCond := rfl
@[simp] theorem State.raiseFault_tokTaken (s : State) (code : FaultCode) :
    (s.raiseFault code).tokTaken = s.tokTaken := rfl
@[simp] theorem State.raiseFault_tokScore (s : State) (code : FaultCode) :
    (s.raiseFault code).tokScore = s.tokScore := rfl
@[simp] theorem State.raiseFault_faulted (s : State) (code : FaultCode) :
    (s.raiseFault code).faulted = true := rfl
@[simp] theorem State.raiseFault_faultCode (s : State) (code : FaultCode) :
    (s.raiseFault code).faultCode = code := rfl
@[simp] theorem State.raiseFault_chb (s : State) (code : FaultCode) :
    (s.raiseFault code).chb = s.chb := rfl
@[simp] theorem State.raiseFault_ghr (s : State) (code : FaultCode) :
    (s.raiseFault code).ghr = s.ghr := rfl
@[simp] theorem State.raiseFault_wt (s : State) (code : FaultCode) :
    (s.raiseFault code).wt = s.wt := rfl
@[simp] theorem State.raiseFault_pending (s : State) (code : FaultCode) :
    (s.raiseFault code).pending = s.pending := rfl
@[simp] theorem State.raiseFault_responses (s : State) (code : FaultCode) :
    (s.raiseFault code).responses = s.responses ++ [Response.encode s.cfg { err := true, faulted := true, faultCode := code, phase := s.phase, taken := false, score := 0, target := 0 }] := rfl

/-! ### applyReset -/

@[simp] theorem State.applyReset_cfg (s : State) :
    (s.applyReset).cfg = s.cfg := rfl
@[simp] theorem State.applyReset_phase (s : State) :
    (s.applyReset).phase = .awaitingPredict := rfl
@[simp] theorem State.applyReset_capAddr (s : State) :
    (s.applyReset).capAddr = 0 := rfl
@[simp] theorem State.applyReset_capCond (s : State) :
    (s.applyReset).capCond = false := rfl
@[simp] theorem State.applyReset_tokTaken (s : State) :
    (s.applyReset).tokTaken = false := rfl
@[simp] theorem State.applyReset_tokScore (s : State) :
    (s.applyReset).tokScore = 0 := rfl
@[simp] theorem State.applyReset_faulted (s : State) :
    (s.applyReset).faulted = false := rfl
@[simp] theorem State.applyReset_faultCode (s : State) :
    (s.applyReset).faultCode = .none := rfl
@[simp] theorem State.applyReset_chb (s : State) :
    (s.applyReset).chb = { e := Vector.replicate s.cfg.H 0, size := 0 } := rfl
@[simp] theorem State.applyReset_ghr (s : State) :
    (s.applyReset).ghr = 0 := rfl
@[simp] theorem State.applyReset_wt (s : State) :
    (s.applyReset).wt = [] := rfl
@[simp] theorem State.applyReset_pending (s : State) :
    (s.applyReset).pending = s.pending := rfl
@[simp] theorem State.applyReset_responses (s : State) :
    (s.applyReset).responses = s.responses := rfl

/-! ### capture -/

@[simp] theorem State.capture_cfg (s : State) (cond : Bool) (a : BitVec s.cfg.addrW) (taken : Bool) (score : Int) :
    (s.capture cond a taken score).cfg = s.cfg := rfl
@[simp] theorem State.capture_phase (s : State) (cond : Bool) (a : BitVec s.cfg.addrW) (taken : Bool) (score : Int) :
    (s.capture cond a taken score).phase = .awaitingUpdate := rfl
@[simp] theorem State.capture_capAddr (s : State) (cond : Bool) (a : BitVec s.cfg.addrW) (taken : Bool) (score : Int) :
    (s.capture cond a taken score).capAddr = a := rfl
@[simp] theorem State.capture_capCond (s : State) (cond : Bool) (a : BitVec s.cfg.addrW) (taken : Bool) (score : Int) :
    (s.capture cond a taken score).capCond = cond := rfl
@[simp] theorem State.capture_tokTaken (s : State) (cond : Bool) (a : BitVec s.cfg.addrW) (taken : Bool) (score : Int) :
    (s.capture cond a taken score).tokTaken = taken := rfl
@[simp] theorem State.capture_tokScore (s : State) (cond : Bool) (a : BitVec s.cfg.addrW) (taken : Bool) (score : Int) :
    (s.capture cond a taken score).tokScore = BitVec.ofInt s.cfg.scoreW score := rfl
@[simp] theorem State.capture_faulted (s : State) (cond : Bool) (a : BitVec s.cfg.addrW) (taken : Bool) (score : Int) :
    (s.capture cond a taken score).faulted = s.faulted := rfl
@[simp] theorem State.capture_faultCode (s : State) (cond : Bool) (a : BitVec s.cfg.addrW) (taken : Bool) (score : Int) :
    (s.capture cond a taken score).faultCode = s.faultCode := rfl
@[simp] theorem State.capture_chb (s : State) (cond : Bool) (a : BitVec s.cfg.addrW) (taken : Bool) (score : Int) :
    (s.capture cond a taken score).chb = s.chb := rfl
@[simp] theorem State.capture_ghr (s : State) (cond : Bool) (a : BitVec s.cfg.addrW) (taken : Bool) (score : Int) :
    (s.capture cond a taken score).ghr = s.ghr := rfl
@[simp] theorem State.capture_wt (s : State) (cond : Bool) (a : BitVec s.cfg.addrW) (taken : Bool) (score : Int) :
    (s.capture cond a taken score).wt = s.wt := rfl
@[simp] theorem State.capture_pending (s : State) (cond : Bool) (a : BitVec s.cfg.addrW) (taken : Bool) (score : Int) :
    (s.capture cond a taken score).pending = s.pending := rfl
@[simp] theorem State.capture_responses (s : State) (cond : Bool) (a : BitVec s.cfg.addrW) (taken : Bool) (score : Int) :
    (s.capture cond a taken score).responses = s.responses := rfl

/-! ### predictUnconditional -/

@[simp] theorem State.predictUnconditional_cfg (s : State) (a : BitVec s.cfg.addrW) :
    (s.predictUnconditional a).cfg = s.cfg := rfl
@[simp] theorem State.predictUnconditional_phase (s : State) (a : BitVec s.cfg.addrW) :
    (s.predictUnconditional a).phase = .awaitingUpdate := rfl
@[simp] theorem State.predictUnconditional_capAddr (s : State) (a : BitVec s.cfg.addrW) :
    (s.predictUnconditional a).capAddr = a := rfl
@[simp] theorem State.predictUnconditional_capCond (s : State) (a : BitVec s.cfg.addrW) :
    (s.predictUnconditional a).capCond = false := rfl
@[simp] theorem State.predictUnconditional_tokTaken (s : State) (a : BitVec s.cfg.addrW) :
    (s.predictUnconditional a).tokTaken = true := rfl
@[simp] theorem State.predictUnconditional_tokScore (s : State) (a : BitVec s.cfg.addrW) :
    (s.predictUnconditional a).tokScore = BitVec.ofInt s.cfg.scoreW 0 := rfl
@[simp] theorem State.predictUnconditional_faulted (s : State) (a : BitVec s.cfg.addrW) :
    (s.predictUnconditional a).faulted = s.faulted := rfl
@[simp] theorem State.predictUnconditional_faultCode (s : State) (a : BitVec s.cfg.addrW) :
    (s.predictUnconditional a).faultCode = s.faultCode := rfl
@[simp] theorem State.predictUnconditional_chb (s : State) (a : BitVec s.cfg.addrW) :
    (s.predictUnconditional a).chb = s.chb := rfl
@[simp] theorem State.predictUnconditional_ghr (s : State) (a : BitVec s.cfg.addrW) :
    (s.predictUnconditional a).ghr = s.ghr := rfl
@[simp] theorem State.predictUnconditional_wt (s : State) (a : BitVec s.cfg.addrW) :
    (s.predictUnconditional a).wt = s.wt := rfl
@[simp] theorem State.predictUnconditional_pending (s : State) (a : BitVec s.cfg.addrW) :
    (s.predictUnconditional a).pending = s.pending := rfl
@[simp] theorem State.predictUnconditional_responses (s : State) (a : BitVec s.cfg.addrW) :
    (s.predictUnconditional a).responses = s.responses ++ [Response.encode s.cfg { err := false, faulted := s.faulted, faultCode := s.faultCode, phase := .awaitingUpdate, taken := true, score := 0, target := 0 }] := rfl

/-! ### predictConditional -/

@[simp] theorem State.predictConditional_cfg (s : State) (a : BitVec s.cfg.addrW) :
    (s.predictConditional a).cfg = s.cfg := rfl
@[simp] theorem State.predictConditional_phase (s : State) (a : BitVec s.cfg.addrW) :
    (s.predictConditional a).phase = .awaitingUpdate := rfl
@[simp] theorem State.predictConditional_capAddr (s : State) (a : BitVec s.cfg.addrW) :
    (s.predictConditional a).capAddr = a := rfl
@[simp] theorem State.predictConditional_capCond (s : State) (a : BitVec s.cfg.addrW) :
    (s.predictConditional a).capCond = true := rfl
@[simp] theorem State.predictConditional_tokTaken (s : State) (a : BitVec s.cfg.addrW) :
    (s.predictConditional a).tokTaken = takenOf (s.score (contextOf s.cfg a.toNat)) := rfl
@[simp] theorem State.predictConditional_tokScore (s : State) (a : BitVec s.cfg.addrW) :
    (s.predictConditional a).tokScore = BitVec.ofInt s.cfg.scoreW (s.score (contextOf s.cfg a.toNat)) := rfl
@[simp] theorem State.predictConditional_faulted (s : State) (a : BitVec s.cfg.addrW) :
    (s.predictConditional a).faulted = s.faulted := rfl
@[simp] theorem State.predictConditional_faultCode (s : State) (a : BitVec s.cfg.addrW) :
    (s.predictConditional a).faultCode = s.faultCode := rfl
@[simp] theorem State.predictConditional_chb (s : State) (a : BitVec s.cfg.addrW) :
    (s.predictConditional a).chb = s.chb := rfl
@[simp] theorem State.predictConditional_ghr (s : State) (a : BitVec s.cfg.addrW) :
    (s.predictConditional a).ghr = s.ghr := rfl
@[simp] theorem State.predictConditional_wt (s : State) (a : BitVec s.cfg.addrW) :
    (s.predictConditional a).wt = s.wt := rfl
@[simp] theorem State.predictConditional_pending (s : State) (a : BitVec s.cfg.addrW) :
    (s.predictConditional a).pending = s.pending := rfl
@[simp] theorem State.predictConditional_responses (s : State) (a : BitVec s.cfg.addrW) :
    (s.predictConditional a).responses = s.responses ++ [Response.encode s.cfg { err := false, faulted := s.faulted, faultCode := s.faultCode, phase := .awaitingUpdate, taken := takenOf (s.score (contextOf s.cfg a.toNat)), score := s.score (contextOf s.cfg a.toNat), target := 0 }] := rfl

/-! ### updateUnconditional -/

@[simp] theorem State.updateUnconditional_cfg (s : State) :
    (s.updateUnconditional).cfg = s.cfg := rfl
@[simp] theorem State.updateUnconditional_phase (s : State) :
    (s.updateUnconditional).phase = .awaitingPredict := rfl
@[simp] theorem State.updateUnconditional_capAddr (s : State) :
    (s.updateUnconditional).capAddr = s.capAddr := rfl
@[simp] theorem State.updateUnconditional_capCond (s : State) :
    (s.updateUnconditional).capCond = s.capCond := rfl
@[simp] theorem State.updateUnconditional_tokTaken (s : State) :
    (s.updateUnconditional).tokTaken = s.tokTaken := rfl
@[simp] theorem State.updateUnconditional_tokScore (s : State) :
    (s.updateUnconditional).tokScore = s.tokScore := rfl
@[simp] theorem State.updateUnconditional_faulted (s : State) :
    (s.updateUnconditional).faulted = s.faulted := rfl
@[simp] theorem State.updateUnconditional_faultCode (s : State) :
    (s.updateUnconditional).faultCode = s.faultCode := rfl
@[simp] theorem State.updateUnconditional_chb (s : State) :
    (s.updateUnconditional).chb = s.chb := rfl
@[simp] theorem State.updateUnconditional_ghr (s : State) :
    (s.updateUnconditional).ghr = s.ghr := rfl
@[simp] theorem State.updateUnconditional_wt (s : State) :
    (s.updateUnconditional).wt = s.wt := rfl
@[simp] theorem State.updateUnconditional_pending (s : State) :
    (s.updateUnconditional).pending = s.pending := rfl
@[simp] theorem State.updateUnconditional_responses (s : State) :
    (s.updateUnconditional).responses = s.responses ++ [Response.encode s.cfg { err := false, faulted := s.faulted, faultCode := s.faultCode, phase := .awaitingPredict, taken := false, score := 0, target := 0 }] := rfl

/-! ### updateConditional -/

@[simp] theorem State.updateConditional_cfg (s : State) (taken : Bool) :
    (s.updateConditional taken).cfg = s.cfg := rfl
@[simp] theorem State.updateConditional_phase (s : State) (taken : Bool) :
    (s.updateConditional taken).phase = .awaitingPredict := rfl
@[simp] theorem State.updateConditional_capAddr (s : State) (taken : Bool) :
    (s.updateConditional taken).capAddr = s.capAddr := rfl
@[simp] theorem State.updateConditional_capCond (s : State) (taken : Bool) :
    (s.updateConditional taken).capCond = s.capCond := rfl
@[simp] theorem State.updateConditional_tokTaken (s : State) (taken : Bool) :
    (s.updateConditional taken).tokTaken = s.tokTaken := rfl
@[simp] theorem State.updateConditional_tokScore (s : State) (taken : Bool) :
    (s.updateConditional taken).tokScore = s.tokScore := rfl
@[simp] theorem State.updateConditional_faulted (s : State) (taken : Bool) :
    (s.updateConditional taken).faulted = s.faulted := rfl
@[simp] theorem State.updateConditional_faultCode (s : State) (taken : Bool) :
    (s.updateConditional taken).faultCode = s.faultCode := rfl
@[simp] theorem State.updateConditional_chb (s : State) (taken : Bool) :
    (s.updateConditional taken).chb = s.chb.push s.capAddr := rfl
@[simp] theorem State.updateConditional_ghr (s : State) (taken : Bool) :
    (s.updateConditional taken).ghr = ghrPush s.ghr taken := rfl
@[simp] theorem State.updateConditional_wt (s : State) (taken : Bool) :
    (s.updateConditional taken).wt = s.trained taken := rfl
@[simp] theorem State.updateConditional_pending (s : State) (taken : Bool) :
    (s.updateConditional taken).pending = s.pending := rfl
@[simp] theorem State.updateConditional_responses (s : State) (taken : Bool) :
    (s.updateConditional taken).responses = s.responses ++ [Response.encode s.cfg { err := false, faulted := s.faulted, faultCode := s.faultCode, phase := .awaitingPredict, taken := false, score := 0, target := 0 }] := rfl

/-! ### withFetchWord -/

@[simp] theorem State.withFetchWord_cfg (s : State) (nbits w : Nat) :
    (s.withFetchWord nbits w).cfg = s.cfg := rfl
@[simp] theorem State.withFetchWord_phase (s : State) (nbits w : Nat) :
    (s.withFetchWord nbits w).phase = s.phase := rfl
@[simp] theorem State.withFetchWord_capAddr (s : State) (nbits w : Nat) :
    (s.withFetchWord nbits w).capAddr = s.capAddr := rfl
@[simp] theorem State.withFetchWord_capCond (s : State) (nbits w : Nat) :
    (s.withFetchWord nbits w).capCond = s.capCond := rfl
@[simp] theorem State.withFetchWord_tokTaken (s : State) (nbits w : Nat) :
    (s.withFetchWord nbits w).tokTaken = s.tokTaken := rfl
@[simp] theorem State.withFetchWord_tokScore (s : State) (nbits w : Nat) :
    (s.withFetchWord nbits w).tokScore = s.tokScore := rfl
@[simp] theorem State.withFetchWord_faulted (s : State) (nbits w : Nat) :
    (s.withFetchWord nbits w).faulted = s.faulted := rfl
@[simp] theorem State.withFetchWord_faultCode (s : State) (nbits w : Nat) :
    (s.withFetchWord nbits w).faultCode = s.faultCode := rfl
@[simp] theorem State.withFetchWord_chb (s : State) (nbits w : Nat) :
    (s.withFetchWord nbits w).chb = s.chb := rfl
@[simp] theorem State.withFetchWord_ghr (s : State) (nbits w : Nat) :
    (s.withFetchWord nbits w).ghr = s.ghr := rfl
@[simp] theorem State.withFetchWord_wt (s : State) (nbits w : Nat) :
    (s.withFetchWord nbits w).wt = s.wt := rfl
@[simp] theorem State.withFetchWord_pending (s : State) (nbits w : Nat) :
    (s.withFetchWord nbits w).pending = .request (BitVec.ofNat s.cfg.reqW (w % 2 ^ nbits)) :: s.pending := rfl
@[simp] theorem State.withFetchWord_responses (s : State) (nbits w : Nat) :
    (s.withFetchWord nbits w).responses = s.responses := rfl

/-! ### The response words, as numbers: what the host sees -/

theorem State.respond_responseWords (s : State) (err taken : Bool) (score : Int) :
    (s.respond err taken score).responseWords = s.responseWords ++ [(Response.encode s.cfg { err := err, faulted := s.faulted, faultCode := s.faultCode, phase := s.phase, taken := taken, score := score, target := 0 }).toNat] :=
  List.map_append ..

theorem State.refuse_responseWords (s : State) :
    (s.refuse).responseWords = s.responseWords ++ [(Response.encode s.cfg { err := true, faulted := s.faulted, faultCode := s.faultCode, phase := s.phase, taken := false, score := 0, target := 0 }).toNat] :=
  List.map_append ..

theorem State.raiseFault_responseWords (s : State) (code : FaultCode) :
    (s.raiseFault code).responseWords = s.responseWords ++ [(Response.encode s.cfg { err := true, faulted := true, faultCode := code, phase := s.phase, taken := false, score := 0, target := 0 }).toNat] :=
  List.map_append ..

theorem State.predictUnconditional_responseWords (s : State) (a : BitVec s.cfg.addrW) :
    (s.predictUnconditional a).responseWords = s.responseWords ++ [(Response.encode s.cfg { err := false, faulted := s.faulted, faultCode := s.faultCode, phase := .awaitingUpdate, taken := true, score := 0, target := 0 }).toNat] :=
  List.map_append ..

theorem State.predictConditional_responseWords (s : State) (a : BitVec s.cfg.addrW) :
    (s.predictConditional a).responseWords = s.responseWords ++ [(Response.encode s.cfg { err := false, faulted := s.faulted, faultCode := s.faultCode, phase := .awaitingUpdate, taken := takenOf (s.score (contextOf s.cfg a.toNat)), score := s.score (contextOf s.cfg a.toNat), target := 0 }).toNat] :=
  List.map_append ..

theorem State.updateUnconditional_responseWords (s : State) :
    (s.updateUnconditional).responseWords = s.responseWords ++ [(Response.encode s.cfg { err := false, faulted := s.faulted, faultCode := s.faultCode, phase := .awaitingPredict, taken := false, score := 0, target := 0 }).toNat] :=
  List.map_append ..

theorem State.updateConditional_responseWords (s : State) (taken : Bool) :
    (s.updateConditional taken).responseWords = s.responseWords ++ [(Response.encode s.cfg { err := false, faulted := s.faulted, faultCode := s.faultCode, phase := .awaitingPredict, taken := false, score := 0, target := 0 }).toNat] :=
  List.map_append ..

theorem State.applyReset_responseWords (s : State) : s.applyReset.responseWords = s.responseWords := rfl

@[simp] theorem State.resetOf_cfg (cfg : Config) : (State.resetOf cfg).cfg = cfg := rfl

end Sys2Proof.Machine
end

