-- ==== Sys2Proof/Laws/Step.lean ====
section
/-! SUPPORT. Everything a command and a step can do, said once. -/

namespace Sys2Proof.Machine

/-- R136: the first matching check decides, and every command answers. -/
theorem execPredict_eq (cond : Bool) (a : Nat) (s : State) :
    execPredict cond a s = .next
      (if s.faulted then s.refuse
       else if s.phase = .awaitingUpdate then s.raiseFault .predictWhilePending
       else if cond then s.predictConditional (s.addressOperand a)
       else s.predictUnconditional (s.addressOperand a)) := by
  unfold execPredict
  cases s.faulted <;> cases hp : s.phase <;> cases cond <;> simp

theorem execUpdate_eq (taken : Bool) (a : Nat) (s : State) :
    execUpdate taken a s = .next
      (if s.faulted then s.refuse
       else if s.phase = .awaitingPredict then s.raiseFault .updateWithoutPredict
       else if s.capCond then s.updateConditional taken
       else s.updateUnconditional) := by
  unfold execUpdate
  cases s.faulted <;> cases hp : s.phase <;> cases s.capCond <;> simp

/-- What a command leaves, by cases on what the checks of R136 let through. -/
inductive CommandEffect (s : State) : Instr → State → Prop where
  | refused (i : Instr) (h : s.faulted = true) : CommandEffect s i s.refuse
  | pendingPredict (c : Bool) (a : Nat) (h : s.faulted = false) (hp : s.phase = .awaitingUpdate) :
      CommandEffect s (.predict c a) (s.raiseFault .predictWhilePending)
  | conditionalPredict (a : Nat) (h : s.faulted = false) (hp : s.phase = .awaitingPredict) :
      CommandEffect s (.predict true a) (s.predictConditional (s.addressOperand a))
  | unconditionalPredict (a : Nat) (h : s.faulted = false) (hp : s.phase = .awaitingPredict) :
      CommandEffect s (.predict false a) (s.predictUnconditional (s.addressOperand a))
  | strayUpdate (t : Bool) (a : Nat) (h : s.faulted = false) (hp : s.phase = .awaitingPredict) :
      CommandEffect s (.update t a) (s.raiseFault .updateWithoutPredict)
  | conditionalUpdate (t : Bool) (a : Nat) (h : s.faulted = false) (hp : s.phase = .awaitingUpdate)
      (hc : s.capCond = true) : CommandEffect s (.update t a) (s.updateConditional t)
  | unconditionalUpdate (t : Bool) (a : Nat) (h : s.faulted = false) (hp : s.phase = .awaitingUpdate)
      (hc : s.capCond = false) : CommandEffect s (.update t a) s.updateUnconditional
  | reserved00 (f : Bool) (a : Nat) (h : s.faulted = false) :
      CommandEffect s (.reservedOp00 f a) (s.raiseFault .reservedOpcode)
  | reserved11 (f : Bool) (a : Nat) (h : s.faulted = false) :
      CommandEffect s (.reservedOp11 f a) (s.raiseFault .reservedOpcode)

/-! ### The command that each path of R136 executes -/

theorem exec_refused {s : State} (i : Instr) (h : s.faulted = true) : exec i s = .next s.refuse := by
  cases i <;> simp [exec, execPredict_eq, execUpdate_eq, execReservedOp00, execReservedOp11, State.reservedRequest, h]

theorem exec_predict_pending {s : State} (c : Bool) (a : Nat) (h : s.faulted = false) (hp : s.phase = .awaitingUpdate) :
    exec (.predict c a) s = .next (s.raiseFault .predictWhilePending) := by
  simp [exec, execPredict_eq, h, hp]

theorem exec_predict_conditional {s : State} (a : Nat) (h : s.faulted = false) (hp : s.phase = .awaitingPredict) :
    exec (.predict true a) s = .next (s.predictConditional (s.addressOperand a)) := by
  simp [exec, execPredict_eq, h, hp]

theorem exec_predict_unconditional {s : State} (a : Nat) (h : s.faulted = false) (hp : s.phase = .awaitingPredict) :
    exec (.predict false a) s = .next (s.predictUnconditional (s.addressOperand a)) := by
  simp [exec, execPredict_eq, h, hp]

theorem exec_update_stray {s : State} (t : Bool) (a : Nat) (h : s.faulted = false) (hp : s.phase = .awaitingPredict) :
    exec (.update t a) s = .next (s.raiseFault .updateWithoutPredict) := by
  simp [exec, execUpdate_eq, h, hp]

theorem exec_update_conditional {s : State} (t : Bool) (a : Nat) (h : s.faulted = false) (hp : s.phase = .awaitingUpdate)
    (hc : s.capCond = true) : exec (.update t a) s = .next (s.updateConditional t) := by
  simp [exec, execUpdate_eq, h, hp, hc]

theorem exec_update_unconditional {s : State} (t : Bool) (a : Nat) (h : s.faulted = false) (hp : s.phase = .awaitingUpdate)
    (hc : s.capCond = false) : exec (.update t a) s = .next s.updateUnconditional := by
  simp [exec, execUpdate_eq, h, hp, hc]

theorem exec_reserved00 {s : State} (f : Bool) (a : Nat) (h : s.faulted = false) :
    exec (.reservedOp00 f a) s = .next (s.raiseFault .reservedOpcode) := by
  simp [exec, execReservedOp00, State.reservedRequest, h]

theorem exec_reserved11 {s : State} (f : Bool) (a : Nat) (h : s.faulted = false) :
    exec (.reservedOp11 f a) s = .next (s.raiseFault .reservedOpcode) := by
  simp [exec, execReservedOp11, State.reservedRequest, h]

/-- Every command answers a next state, which is one of the effects above. -/
theorem exec_effect (i : Instr) (s : State) : ∃ t, exec i s = .next t ∧ CommandEffect s i t := by
  cases hf : s.faulted with
  | true => exact ⟨_, exec_refused i hf, .refused i hf⟩
  | false =>
    cases i with
    | predict c a =>
      cases hp : s.phase with
      | awaitingUpdate => exact ⟨_, exec_predict_pending c a hf hp, .pendingPredict c a hf hp⟩
      | awaitingPredict =>
        cases c with
        | true => exact ⟨_, exec_predict_conditional a hf hp, .conditionalPredict a hf hp⟩
        | false => exact ⟨_, exec_predict_unconditional a hf hp, .unconditionalPredict a hf hp⟩
    | update t a =>
      cases hp : s.phase with
      | awaitingPredict => exact ⟨_, exec_update_stray t a hf hp, .strayUpdate t a hf hp⟩
      | awaitingUpdate =>
        cases hc : s.capCond with
        | true => exact ⟨_, exec_update_conditional t a hf hp hc, .conditionalUpdate t a hf hp hc⟩
        | false => exact ⟨_, exec_update_unconditional t a hf hp hc, .unconditionalUpdate t a hf hp hc⟩
    | reservedOp00 f a => exact ⟨_, exec_reserved00 f a hf, .reserved00 f a hf⟩
    | reservedOp11 f a => exact ⟨_, exec_reserved11 f a hf, .reserved11 f a hf⟩

theorem exec_effect_of_next {i : Instr} {s t : State} (h : exec i s = .next t) : CommandEffect s i t := by
  obtain ⟨t', ht, he⟩ := exec_effect i s
  rw [h] at ht
  cases ht
  exact he

/-! ### The three kinds of step -/

theorem step_of_idle {s : State} (h : s.pending = []) : step s = .next s := by
  simp [step, State.accept, h, State.idle]

theorem step_of_rst {s : State} {rest : List (PortEvent s.cfg.reqW)} (h : s.pending = .rst :: rest) :
    step s = .next (State.applyReset { s with pending := rest }) := by
  simp [step, State.accept, h]

theorem step_of_request {s : State} {w : BitVec s.cfg.reqW} {rest : List (PortEvent s.cfg.reqW)}
    (h : s.pending = .request w :: rest) : step s = exec (decode s.cfg w) { s with pending := rest } := by
  simp [step, State.accept, h]

/-! ### Runs -/

theorem runs_zero {s t : State} : runs 0 s t ↔ s = t := by simp [runs, run]

theorem runs_succ {n : Nat} {s t : State} : runs (n + 1) s t ↔ ∃ u, step s = .next u ∧ runs n u t := by
  unfold runs
  rw [run]
  cases step s <;> simp

theorem core_run_next (M : Host.Core) {n : Nat} {s t : M.State} (h : M.step s = .next t) : M.run (n + 1) s = M.run n t := by
  simp only [Host.Core.run, h]

theorem core_run_fault (M : Host.Core) {n : Nat} {s : M.State} {r : M.Fault} (h : M.step s = .fault r) :
    M.run (n + 1) s = .fault r := by
  simp only [Host.Core.run, h]

theorem core_run_refused (M : Host.Core) {n : Nat} {s : M.State} {r : M.Refusal} (h : M.step s = .refused r) :
    M.run (n + 1) s = .refused r := by
  simp only [Host.Core.run, h]

/-- `run` is the host's run of the machine. -/
theorem run_eq_core_run (n : Nat) (s : State) : Host.Core.run Sys2Proof.core n s = run n s := by
  induction n generalizing s with
  | zero => rfl
  | succ n ih =>
    cases h : step s with
    | next t => exact (core_run_next Sys2Proof.core h).trans ((ih t).trans (by simp only [run, h]; rfl))
    | fault r => exact (core_run_fault Sys2Proof.core h).trans (by simp only [run, h]; rfl)
    | refused r => exact (core_run_refused Sys2Proof.core h).trans (by simp only [run, h]; rfl)

end Sys2Proof.Machine
end

