-- ==== Sys2Proof/Tests/Slice0.lean ====
section
/-! SUPPORT. Tests: the checks of WellFormed, request words written out from 30_encoding.md, vectors of 95_test_vectors.md, and, for
every statement with hypotheses, values that meet them together (`witness_<Name>`). -/

open Sys2Proof Sys2Proof.Machine

namespace Sys2Proof.Tests

/-! ### States -/

/-- A configuration of the vectors, with ADDR_W = 64. -/
def cfgOf (n m h : Nat) (ok : 1 ≤ n ∧ 1 ≤ m ∧ 1 ≤ h := by decide) : Config :=
  { N := n, M := m, H := h, addrW := 64, N_pos := ok.1, M_pos := ok.2.1, H_pos := ok.2.2, addrW_pos := by decide }

/-- A block in PHASE 0 with the given weights and the given resolved branches, oldest first. -/
def blockOf (cfg : Config) (wt : Memory) (branches : List (Nat × Bool)) : State :=
  { State.resetOf cfg with
    wt := wt
    chb := branches.foldl (fun b x => b.push (BitVec.ofNat cfg.addrW x.1)) (State.resetOf cfg).chb
    ghr := branches.foldl (fun g x => ghrPush g x.2) (State.resetOf cfg).ghr }

/-- The same block in PHASE 1, with the given captured branch and token. -/
def awaitingUpdate (s : State) (a : Nat) (cond taken : Bool) (score : Int) : State :=
  s.capture cond (BitVec.ofNat s.cfg.addrW a) taken score

/-- The block with the given words presented. -/
def presented (s : State) (ws : List Nat) : State :=
  { s with pending := ws.map fun w => .request (BitVec.ofNat s.cfg.reqW w) }

/-- The state a step or a run answers, or the state before it. -/
def nextOf (s : State) : Host.Outcome State Fault Refusal → State
  | .next t => t
  | .fault _ => s
  | .refused _ => s

/-- The state after a command. -/
def afterExec (i : Instr) (s : State) : State := nextOf s (exec i s)

/-- PHASE 0, freshly reset. -/
def fresh : State := State.reset

/-- PHASE 1, after V-PRED-1. -/
def pendingBlock : State := awaitingUpdate fresh 0x11 true true 0

/-- PHASE 1, after V-PRED-7. -/
def pendingUnconditional : State := awaitingUpdate fresh 0x1000 false true 0

/-- A faulted block: V-FAULT-4. -/
def faultedBlock : State := fresh.raiseFault .updateWithoutPredict

/-- V-UPD-4: N = M = H = 1, bias 127, lane 1 -127, CHB [0x8], GHR 0; score 254 predicts taken. -/
def confidentBlock : State := awaitingUpdate (blockOf (cfgOf 1 1 1) [(0, 0x7F), (1, 0x81)] [(0x8, false)]) 0x8 true true 254

/-- V-UPD-9: N = 2, M = 4, H = 2, CHB [0x7, 0x6], GHR 01, W[1][0][0] = W[1][3][1] = 1; score 2 predicts taken. -/
def fullBlock : State := awaitingUpdate (blockOf (cfgOf 2 4 2) [(12, 1), (22, 1)] [(0x6, false), (0x7, true)]) 0x5 true true 2

/-! ### WellFormed: each check refuses an ill-formed term -/

theorem test_wf_predict : Instr.wf Config.reference (.predict true (2 ^ 64)) = false := by decide
theorem test_wf_update : Instr.wf Config.reference (.update true (2 ^ 64)) = false := by decide
theorem test_wf_reservedOp00 : Instr.wf Config.reference (.reservedOp00 false (2 ^ 64)) = false := by decide
theorem test_wf_reservedOp11 : Instr.wf Config.reference (.reservedOp11 false (2 ^ 64)) = false := by decide
theorem test_wf_greatest_operand : Instr.wf Config.reference (.predict true (2 ^ 64 - 1)) = true := by decide

/-- R140. -/
theorem test_config_rejected :
    Config.build? 0 1 1 1 = none ∧ Config.build? 1 (-1) 1 1 = none ∧ Config.build? 1 1 0 1 = none ∧
    Config.build? 1 1 1 0 = none ∧ Config.build? 4 8 4 64 = some Config.reference := by decide

/-! ### Decoding: the words of V-ENC, and the same words bit by bit, `A` then `F` then `OP` -/

theorem test_decode_predict :
    decode Config.reference (0x11#64 ++ 1#1 ++ 0b01#2) = .predict true 0x11 ∧
    decodeWord Config.reference 0x5 = .ok (.predict true 0) ∧ decodeWord Config.reference 0x1 = .ok (.predict false 0) ∧
    decodeWord Config.reference 0x8D = .ok (.predict true 0x11) ∧
    decodeWord Config.reference 0x8001 = .ok (.predict false 0x1000) := by decide

theorem test_decode_update :
    decode Config.reference (0x400#64 ++ 1#1 ++ 0b10#2) = .update true 0x400 ∧
    decodeWord Config.reference 0x6 = .ok (.update true 0) ∧ decodeWord Config.reference 0x2 = .ok (.update false 0) ∧
    decodeWord Config.reference 0x2006 = .ok (.update true 0x400) ∧
    decodeWord Config.reference 0x91A2E = .ok (.update true 0x12345) := by decide

theorem test_decode_reservedOp00 :
    decode Config.reference (0x0#64 ++ 1#1 ++ 0b00#2) = .reservedOp00 true 0 ∧
    decodeWord Config.reference 0x0 = .ok (.reservedOp00 false 0) := by decide

theorem test_decode_reservedOp11 :
    decode Config.reference (0x0#64 ++ 0#1 ++ 0b11#2) = .reservedOp11 false 0 ∧
    decodeWord Config.reference 0x7 = .ok (.reservedOp11 true 0) ∧
    decodeWord Config.reference 0x7FFFFFFFFFFFFFFFF = .ok (.reservedOp11 true (2 ^ 64 - 1)) := by decide

theorem test_decode_too_wide : decodeWord Config.reference (2 ^ 67) = .error .wordTooWide := by decide

theorem test_decode_bytes :
    decodeBytes Config.reference [0x8D, 0, 0, 0, 0, 0, 0, 0, 0] = .ok (.predict true 0x11) ∧
    decodeBytes Config.reference [0x8D] = .error .wrongByteCount ∧
    decodeBytes Config.reference [0x8D, 0, 0, 0, 0, 0, 0, 0, 0x08] = .error .wordTooWide := by decide

theorem test_decode_table_words :
    decodeTableWord 8 0x1 = some (.predict false 0) ∧ decodeTableWord 8 0x2 = some (.update false 0) ∧
    decodeTableWord 8 0x0 = some (.reservedOp00 false 0) ∧ decodeTableWord 72 0x7FFFFFFFFFFFFFFFF = some (.reservedOp11 true (2 ^ 64 - 1)) := by
  decide

/-- V-PRED-3 (`0x9EF0`) and -1 at SCORE_W = 11 (`0x1FFD0`): 81 bits in 11 bytes, the low byte first. -/
theorem test_response_bytes :
    Response.encodeBytes Config.reference
        { err := false, faulted := false, faultCode := .none, phase := .awaitingUpdate, taken := false, score := -1, target := 0 }
      = [0xD0, 0xFF, 0x01, 0, 0, 0, 0, 0, 0, 0, 0] ∧
    Response.decodeBytes Config.reference [0xF0, 0x9E, 0, 0, 0, 0, 0, 0, 0, 0, 0]
      = .ok { err := false, faulted := false, faultCode := .none, phase := .awaitingUpdate, taken := true, score := 635, target := 0 } ∧
    Response.decodeBytes Config.reference [0xF0, 0x9E] = .error .wrongByteCount := by decide

/-- The response decoding examples of 95_test_vectors.md, at SCORE_W = 11. -/
theorem test_decode_response :
    Response.decode Config.reference 0x1FFD0
      = { err := false, faulted := false, faultCode := .none, phase := .awaitingUpdate, taken := false, score := -1, target := 0 } ∧
    Response.decode Config.reference 0x7F0
      = { err := false, faulted := false, faultCode := .none, phase := .awaitingUpdate, taken := true, score := 31, target := 0 } ∧
    Response.decode Config.reference 0x1B
      = { err := true, faulted := true, faultCode := .predictWhilePending, phase := .awaitingUpdate, taken := false, score := 0
          target := 0 } := by decide

/-! ### The primitives -/

/-- R99: THETA_MAX and SCORE_W for H = 1, 2, 4, 52, 128. -/
theorem test_theta_and_scoreW :
    [1, 2, 4, 52, 128].map (fun h => if ok : 1 ≤ h then (thetaMax (cfgOf 1 1 h (by omega)), (cfgOf 1 1 h (by omega)).scoreW) else (0, 0))
      = [(24, 9), (26, 10), (31, 11), (133, 14), (296, 15)] := by decide

/-- V-CHB-5, V-CHB-6 and V-CHB-9 after the document's pushes 10, 20, 30, 40. -/
theorem test_history_buffer :
    let b := [10, 20, 30, 40].foldl Chb.push ({ e := Vector.replicate 3 0, size := 0 } : Chb 64 3)
    (b.push 50).e.toList = [50, 40, 30] ∧ b.popFront.1 = 20 ∧ b.popFront.2.e.toList = [40, 30, 0] ∧
    b.popFront.2.size.val = 2 ∧ b.atAge 0 = 40 ∧ b.atAge 2 = 20 ∧ b.atAge 3 = 0 ∧
    ({ e := Vector.replicate 3 0, size := 0 } : Chb 64 3).popFront.1 = 0 := by decide

/-- V-GHR-2, V-GHR-3, V-GHR-4, V-GHR-6. -/
theorem test_history_register :
    ghrPush 0b1011#4 false = 0b0110#4 ∧ (List.range 5).map (ghrBitAt 0b1011#4) = [true, true, false, true, false] ∧
    ghrPush 0#1 true = 1#1 := by decide

/-- V-CELL. -/
theorem test_cell :
    [(0, true), (0, false), (126, true), (127, true), (127, false), (-126, false), (-127, false), (-127, true)].map
        (fun x => trainStep x.1 x.2) = [1, -1, 127, 127, 126, -127, -127, -126] := by decide

/-- V-GATE-1, 2, 4, 5 at H = 4 and V-GATE-8, 11 at H = 2 and 52. -/
theorem test_gate :
    trainGate Config.reference 31 true true = true ∧ trainGate Config.reference 32 true true = false ∧
    trainGate Config.reference (-32) false false = false ∧ trainGate Config.reference 100 true false = true ∧
    trainGate (cfgOf 1 1 2) 27 true true = false ∧ trainGate (cfgOf 1 1 52) 133 true true = true := by decide

/-- V-ACC-6 and V-ACC-9. -/
theorem test_score :
    (blockOf (cfgOf 1 1 4) [(0, 1), (1, 2), (2, 3), (3, 4), (4, 5)] [(0, false), (0, true), (0, false), (0, true)]).score 0 = -1 ∧
    (blockOf (cfgOf 1 1 4) [(0, 0x81), (1, 0x7F), (2, 0x7F), (3, 0x7F), (4, 0x7F)]
      [(0, false), (0, false), (0, false), (0, false)]).score 0 = -635 := by decide

/-! ### One step -/

/-- V-PRED-10. -/
theorem test_predict_not_power_of_two :
    let t := nextOf fresh (step (presented (blockOf (cfgOf 3 5 1) [(20, 4)] []) [0x75]))
    t.responseWords = [0x130] ∧ t.captured = (0xE, true, true, 4) := by decide

/-- V-PRED-9. -/
theorem test_predict_pending :
    let t := nextOf fresh (step (presented pendingBlock [0x115]))
    t.responseWords = [0x1B] ∧ t.captured = (0x11, true, true, 0) := by decide

/-- V-UPD-4: a confident misprediction trains a saturated cell and one with bit 0 = not taken. -/
theorem test_update_mispredicted :
    let t := nextOf fresh (step (presented confidentBlock [0x2]))
    t.responseWords = [0x0] ∧ t.wt = [(0, 0x7E), (1, 0x82)] ∧ t.historyBits = ([0x8], 1, 0) := by decide

/-- V-UPD-9: the evicted entry is trained before it is evicted. -/
theorem test_update_full :
    let t := nextOf fresh (step (presented fullBlock [0x2]))
    t.responseWords = [0x0] ∧ t.wt = [(20, 1)] ∧ t.historyBits = ([0x5, 0x7], 2, 0b10) := by decide

/-- V-FAULT-2. -/
theorem test_reservedOp00 :
    let t := nextOf fresh (step (presented pendingBlock [0x0]))
    t.responseWords = [0x1F] ∧ t.statusView = (.awaitingUpdate, true, .reservedOpcode) := by decide

/-- V-FAULT-1. -/
theorem test_reservedOp11 :
    let t := nextOf fresh (step (presented fresh [0x3]))
    t.responseWords = [0xF] ∧ t.statusView = (.awaitingPredict, true, .reservedOpcode) := by decide

/-- V-FAULT-7, V-RESET-1: reset clears a fault and everything else. -/
theorem test_reset :
    nextOf fresh (step { faultedBlock with wt := [(3, 5)], ghr := 7, pending := [.rst] })
      = { State.reset with responses := faultedBlock.responses } := by decide

/-- `withFetchWord` presents the word that the next step runs. -/
theorem test_withFetchWord :
    (nextOf fresh (step (State.reset.withFetchWord 67 0x8D))).responseWords = [0x30] := by decide

/-! ### The program notation -/

/-- R69 to R73, on lines of P1, P3 and P5. -/
theorem test_parse :
    parseLine "predict 0x1000, u           ; comment".toList = some (.predict 0x1000 false) ∧
    parseLine "update t, 0x2000".toList = some (.update true 0x2000) ∧
    parseLine "cbr 0x11, t".toList = some (.cbr 0x11 true) ∧ parseLine ".word 0x3".toList = some (.word 3) ∧
    parseLine ".config N=1, M=1, H=1       ; SCORE_W = 9".toList = some (.config 1 1 1 64) ∧
    parseLine "cbr 0x11".toList = none := by decide

/-- R74. -/
theorem test_list_response : listResponse (0x1FFD0 : BitVec Config.reference.respW) = "-> resp 0x1FFD0".toList := by decide

/-! ### Witnesses: values that meet the hypotheses of each statement together -/

theorem witness_DecodeOfEncodeIsTheCommand :
    [Instr.predict true 0, .predict false (2 ^ 64 - 1), .update true 0, .update false (2 ^ 64 - 1), .reservedOp00 true (2 ^ 64 - 1),
      .reservedOp11 false 0].all (Instr.wf Config.reference) = true := by decide

theorem witness_DecodeReadsOpThenFAndA :
    [0, 1, 2, 3, 2 ^ 67 - 4, 2 ^ 67 - 3, 2 ^ 67 - 2, 2 ^ 67 - 1].map (fun w => (BitVec.ofNat Config.reference.reqW w).toNat % 4)
      = [0, 1, 2, 3, 0, 1, 2, 3] := by decide

theorem witness_RequestWordIsTheFieldSum : (0 : Nat) < 2 ^ Config.reference.addrW ∧ 2 ^ 64 - 1 < 2 ^ Config.reference.addrW := by decide

/-- Bytes 0 to 8 of a request and 0 to 10 of a response. -/
theorem witness_ByteTransportIsLittleEndian :
    Instr.wf Config.reference (.predict true 0x11) = true ∧ (Config.reference.reqW + 7) / 8 = 9 ∧
    (Config.reference.respW + 7) / 8 = 11 := by decide

theorem witness_ResponseWordIsTheFieldSum :
    ∃ r : Response, r.target < 2 ^ Config.reference.addrW ∧ r.score = -1 :=
  ⟨{ err := true, faulted := true, faultCode := .reservedOpcode, phase := .awaitingUpdate, taken := true, score := -1
     target := 2 ^ 64 - 1 }, by decide⟩

/-- Both ends of the score's range, SCORE_W = 11. -/
theorem witness_ResponseFieldsReadBack : ∀ v ∈ [(-1024 : Int), 1023], ∃ r : Response, r.score = v ∧ r.target < 2 ^ Config.reference.addrW ∧
    -(2 ^ (Config.reference.scoreW - 1) : Int) ≤ r.score ∧ r.score < 2 ^ (Config.reference.scoreW - 1) := by
  intro v hv
  exact ⟨{ err := false, faulted := false, faultCode := .none, phase := .awaitingUpdate, taken := true, score := v
           target := 2 ^ 64 - 1 }, rfl, (by decide : 2 ^ 64 - 1 < 2 ^ Config.reference.addrW), by revert v; decide, by revert v; decide⟩

theorem witness_NonPositiveConfigurationIsRejected :
    (∃ cfg, Config.build? 1 1 1 1 = some cfg) ∧ Config.build? 0 1 1 1 = none :=
  ⟨⟨_, rfl⟩, by decide⟩

/-- The clauses: an encoded command, a word, and a word given with its width. -/
theorem witness_StepRunsThePresentedCommand :
    (∃ (s : State) (i : Instr) (rest : List (PortEvent s.cfg.reqW)), i.wf s.cfg = true ∧
      s.pending = .request (encode s.cfg i) :: rest) ∧
    (∃ (s : State) (w : BitVec s.cfg.reqW) (rest : List (PortEvent s.cfg.reqW)), s.pending = .request w :: rest) ∧
    (2 ^ 67 - 1 < 2 ^ 67 ∧ 2 ^ 67 - 1 < 2 ^ fresh.cfg.reqW) :=
  ⟨⟨presented fresh [0x7FFFFFFFFFFFFFFFD, 0x6], .predict true (2 ^ 64 - 1), [.request 0x6], by decide⟩,
   ⟨presented fresh [0x3], 0x3, [], by decide⟩, by decide⟩

theorem witness_ResetRestoresEveryResetValue :
    ∃ (s : State) (rest : List (PortEvent s.cfg.reqW)), s.pending = .rst :: rest ∧ s.faulted = true :=
  ⟨{ faultedBlock with pending := [.rst, .request 0x6] }, [.request 0x6], by decide⟩

theorem witness_NothingPresentedNothingChanges : fresh.pending = [] := by decide

/-- The three clauses: nothing presented, a reset, a request. -/
theorem witness_EveryStepAnswers :
    fresh.pending = [] ∧
    (∃ (s : State) (rest : List (PortEvent s.cfg.reqW)), s.pending = .rst :: rest) ∧
    (∃ (s : State) (w : BitVec s.cfg.reqW) (rest : List (PortEvent s.cfg.reqW)), s.pending = .request w :: rest) :=
  ⟨by decide, ⟨{ pendingBlock with pending := [.rst] }, [], by decide⟩, ⟨presented pendingBlock [0x6], 0x6, [], by decide⟩⟩

/-- One answer with ERR = 0 and one with ERR = 1. -/
theorem witness_EveryResponseReportsTheStatus :
    (∃ (s t : State) (w : BitVec s.cfg.reqW) (rest : List (PortEvent s.cfg.reqW)),
      s.pending = .request w :: rest ∧ step s = .next t ∧ t.faulted = false) ∧
    (∃ (s t : State) (w : BitVec s.cfg.reqW) (rest : List (PortEvent s.cfg.reqW)),
      s.pending = .request w :: rest ∧ step s = .next t ∧ t.faulted = true) :=
  ⟨⟨presented fresh [0x8D], nextOf fresh (step (presented fresh [0x8D])), 0x8D, [], by decide, rfl, by decide⟩,
   ⟨presented fresh [0x6], nextOf fresh (step (presented fresh [0x6])), 0x6, [], by decide, rfl, by decide⟩⟩

/-- The least and the greatest address. -/
theorem witness_ConditionalPredictResult :
    fresh.faulted = false ∧ fresh.phase = .awaitingPredict ∧ 0 < 2 ^ fresh.cfg.addrW ∧ 2 ^ 64 - 1 < 2 ^ fresh.cfg.addrW := by decide

theorem witness_UnconditionalPredictResult :
    fresh.faulted = false ∧ fresh.phase = .awaitingPredict ∧ 0 < 2 ^ fresh.cfg.addrW ∧ 2 ^ 64 - 1 < 2 ^ fresh.cfg.addrW := by decide

theorem witness_ExecutedPredictRespondsWithItsToken :
    fresh.faulted = false ∧ fresh.faultRecordAgrees ∧ fresh.phase = .awaitingPredict ∧ 2 ^ 64 - 1 < 2 ^ fresh.cfg.addrW := by decide

theorem witness_PredictWhilePendingFaults : pendingBlock.faulted = false ∧ pendingBlock.phase = .awaitingUpdate := by decide

/-- An executed PREDICT, one refused while faulted, and one that faults. -/
theorem witness_PredictChangesOnlyCaptureAndToken :
    (exec (.predict true 0x11) fresh = .next (afterExec (.predict true 0x11) fresh) ∧ fresh.faulted = false ∧
      fresh.phase = .awaitingPredict) ∧
    (exec (.predict true 0x11) faultedBlock = .next (afterExec (.predict true 0x11) faultedBlock) ∧ faultedBlock.faulted = true) ∧
    (exec (.predict false 0x11) pendingBlock = .next (afterExec (.predict false 0x11) pendingBlock) ∧
      pendingBlock.phase = .awaitingUpdate) :=
  ⟨⟨rfl, by decide⟩, ⟨rfl, by decide⟩, ⟨rfl, by decide⟩⟩

theorem witness_ScoreIsBoundedAndFits : fullBlock.weightsInRange ∧ confidentBlock.weightsInRange := by decide

theorem witness_UnconditionalUpdateResult :
    pendingUnconditional.faulted = false ∧ pendingUnconditional.phase = .awaitingUpdate ∧ pendingUnconditional.capCond = false ∧
    2 ^ 64 - 1 < 2 ^ pendingUnconditional.cfg.addrW := by decide

/-- An open gate with an address outside the visited cells, and a closed gate. -/
theorem witness_ConditionalUpdateResult :
    (fullBlock.faulted = false ∧ fullBlock.phase = .awaitingUpdate ∧ fullBlock.capCond = true ∧ 2 ^ 64 - 1 < 2 ^ fullBlock.cfg.addrW ∧
      0 ∉ (fullBlock.accessCells (fullBlock.capAddr.toNat % fullBlock.cfg.N)).map (Cell.address fullBlock.cfg)) ∧
    (confidentBlock.faulted = false ∧ confidentBlock.phase = .awaitingUpdate ∧ confidentBlock.capCond = true ∧
      ¬ 100 * |confidentBlock.tokScore.toInt| < 214 * ((confidentBlock.cfg.H : Int) + 1) + 2058 ∧
      confidentBlock.tokTaken = true) := by decide

theorem witness_ConditionalUpdateRecordsTheBranch :
    fullBlock.faulted = false ∧ fullBlock.phase = .awaitingUpdate ∧ fullBlock.capCond = true ∧
    exec (.update false 0) fullBlock = .next (afterExec (.update false 0) fullBlock) :=
  ⟨by decide, by decide, by decide, rfl⟩

/-- V-UPD-3: score 254 predicts taken, and the branch is taken. -/
theorem witness_ClosedGateKeepsEveryWeight :
    exec (.update true 0) confidentBlock = .next (afterExec (.update true 0) confidentBlock) ∧
    ¬ 100 * |confidentBlock.tokScore.toInt| < 214 * ((confidentBlock.cfg.H : Int) + 1) + 2058 ∧ confidentBlock.tokTaken = true :=
  ⟨rfl, by decide, by decide⟩

/-- Each half of the gate alone, with a history position to train and an address outside the visited cells. -/
theorem witness_OpenGateTrainsExactlyTheVisitedCells :
    (confidentBlock.wt.wf ∧ confidentBlock.faulted = false ∧ confidentBlock.phase = .awaitingUpdate ∧ confidentBlock.capCond = true ∧
      ¬ 100 * |confidentBlock.tokScore.toInt| < 214 * ((confidentBlock.cfg.H : Int) + 1) + 2058 ∧
      confidentBlock.tokTaken ≠ false ∧ 0 < confidentBlock.chb.occupancy) ∧
    (fullBlock.wt.wf ∧ fullBlock.faulted = false ∧ fullBlock.phase = .awaitingUpdate ∧ fullBlock.capCond = true ∧
      100 * |fullBlock.tokScore.toInt| < 214 * ((fullBlock.cfg.H : Int) + 1) + 2058 ∧ fullBlock.tokTaken = true ∧
      1 < fullBlock.chb.occupancy ∧ 0 ∉ (fullBlock.accessCells 1).map (Cell.address fullBlock.cfg)) := by decide

theorem witness_UpdateWithoutPredictFaults : fresh.faulted = false ∧ fresh.phase = .awaitingPredict := by decide

theorem witness_UpdateTargetHasNoEffect :
    ∃ w w' : BitVec fresh.cfg.reqW, w.toNat % 4 = 2 ∧ w.toNat % 8 = w'.toNat % 8 ∧ w ≠ w' := ⟨0x6, 0x91A2E, by decide⟩

theorem witness_UnconditionalBranchLeavesTheStructures :
    ∃ (s : State) (rest : List (PortEvent s.cfg.reqW)),
      0x1000 < 2 ^ s.cfg.addrW ∧ 2 ^ 64 - 1 < 2 ^ s.cfg.addrW ∧ s.faulted = false ∧ s.phase = .awaitingPredict ∧
      s.pending = .request (encode s.cfg (.predict false 0x1000)) :: .request (encode s.cfg (.update true (2 ^ 64 - 1))) :: rest :=
  ⟨presented (blockOf (cfgOf 2 4 2) [(12, 1), (22, 1)] [(0x6, false)]) [0x8001, 0x7FFFFFFFFFFFFFFFE], [], by decide⟩

/-- Both phases. -/
theorem witness_ReservedOpcodeFaults :
    (fresh.faulted = false ∧ fresh.phase = .awaitingPredict) ∧ pendingBlock.faulted = false ∧ pendingBlock.phase = .awaitingUpdate := by
  decide

/-- A faulted block with nothing presented, with a request and with a reset. -/
theorem witness_FaultedBlockRefusesEveryCommand :
    (faultedBlock.faulted = true ∧ step faultedBlock = .next faultedBlock) ∧
    step (presented faultedBlock [0x8D]) = .next (nextOf fresh (step (presented faultedBlock [0x8D]))) ∧
    (∃ (s : State) (rest : List (PortEvent s.cfg.reqW)),
      s.faulted = true ∧ s.pending = PortEvent.rst :: rest ∧ step s = .next (nextOf fresh (step s))) :=
  ⟨⟨by decide, rfl⟩, rfl, ⟨{ faultedBlock with pending := [.rst] }, [], by decide, by decide, rfl⟩⟩

theorem witness_OnlyResetClearsAFault :
    let s := presented faultedBlock [0x8D, 0x6, 0x3]
    s.faulted = true ∧ (∀ e ∈ s.pending, e ≠ PortEvent.rst) ∧ runs 3 s (nextOf fresh (run 3 s)) :=
  ⟨by decide, by decide, rfl⟩

/-- A command that changes PHASE, and one that changes FAULTED. -/
theorem witness_FlagsAreWrittenOnlyAsTheRulesSay :
    (exec (.update false 0) fullBlock = .next (afterExec (.update false 0) fullBlock) ∧
      (afterExec (.update false 0) fullBlock).phase ≠ fullBlock.phase) ∧
    exec (.reservedOp11 true 0) fullBlock = .next (afterExec (.reservedOp11 true 0) fullBlock) ∧
    (afterExec (.reservedOp11 true 0) fullBlock).faulted ≠ fullBlock.faulted :=
  ⟨⟨rfl, by decide⟩, rfl, by decide⟩

/-- V-UPD-9 trains the bias `W[1][0][0]`, which is address 12. -/
theorem witness_OnlyTrainingChangesTheWeights :
    exec (.update false 0) fullBlock = .next (afterExec (.update false 0) fullBlock) ∧
    (afterExec (.update false 0) fullBlock).wt.read 12 ≠ fullBlock.wt.read 12 :=
  ⟨rfl, by decide⟩

/-- Both rows of the table. -/
theorem witness_ProtocolTable :
    (fresh.faulted = false ∧ fresh.phase = .awaitingPredict) ∧ pendingBlock.faulted = false ∧ pendingBlock.phase = .awaitingUpdate := by
  decide

/-- A stream that alternates and one that does not. -/
theorem witness_AlternationIsExactlyFaultFreedom :
    let good := presented fresh [0x8D, 0x6, 0x8001, 0x2]
    let bad := presented fresh [0x8D, 0x6, 0x6]
    (good.faulted = false ∧ alternates good.cfg good.phase good.pending = true) ∧
    bad.faulted = false ∧ alternates bad.cfg bad.phase bad.pending = false ∧ (nextOf fresh (run 3 bad)).faulted = true := by decide

/-- A state of the invariant with an outstanding token of a full, trained history, and its step. -/
theorem witness_EveryStepKeepsTheInvariant :
    let s := presented fullBlock [0x2]
    s.Inv ∧ step s = .next (nextOf fresh (step s)) :=
  ⟨⟨by decide, by decide, by decide, by decide, by decide, by decide, by decide⟩, rfl⟩

/-- A bias cell, a cell that never is one, and the last cell. -/
theorem witness_WeightsReadInRange :
    fullBlock.Inv ∧ ({ ctx := 1, row := 0, lane := 0 } : Cell).valid fullBlock.cfg ∧
    ({ ctx := 1, row := 3, lane := 0 } : Cell).valid fullBlock.cfg ∧ ({ ctx := 1, row := 3, lane := 2 } : Cell).valid fullBlock.cfg :=
  ⟨⟨by decide, by decide, by decide, by decide, by decide, by decide, by decide⟩, by decide, by decide, by decide⟩

theorem witness_FirstCommandAfterReset : (0 : Nat) < 2 ^ Config.reference.addrW ∧ 2 ^ 64 - 1 < 2 ^ Config.reference.addrW := by decide

/-- A full buffer satisfies the invariant that a push keeps. -/
theorem witness_PushShiftsTheEntries : fullBlock.chb.tailZero ∧ fullBlock.chb.occupancy = 2 ∧ fresh.chb.tailZero := by decide

/-- An empty, a one-entry and a full buffer. -/
theorem witness_PopFrontRemovesTheOldest :
    fresh.chb.occupancy = 0 ∧ 0 < confidentBlock.chb.occupancy ∧ fullBlock.chb.occupancy = fullBlock.cfg.H := by decide

/-- Cells at both ends of the range. -/
theorem witness_CellTrainSaturates :
    confidentBlock.wt.wf ∧ confidentBlock.wt.weight confidentBlock.cfg (biasCell 0) = 127 ∧
    confidentBlock.wt.weight confidentBlock.cfg { ctx := 0, row := 0, lane := 1 } = -127 := by decide

/-- Two cells that exist and differ, the last one among them, and a memory that lists something. -/
theorem witness_WeightTableIsAnArrayOfCells :
    ({ ctx := 0, row := 0, lane := 0 } : Cell).valid Config.reference ∧ ({ ctx := 3, row := 7, lane := 4 } : Cell).valid Config.reference ∧
    fullBlock.wt.wf ∧ fullBlock.wt ≠ [] := by decide

/-- A context of a full history, and the targets in another order. -/
theorem witness_VisitedCellsAreDistinct :
    1 < fullBlock.cfg.N ∧ fullBlock.wt.wf ∧ (fullBlock.trainTargets false).reverse.Perm (fullBlock.trainTargets false) ∧
    (fullBlock.trainTargets false).reverse ≠ fullBlock.trainTargets false :=
  ⟨by decide, by decide, List.reverse_perm _, by decide⟩

/-- The oldest position of a full history, and `clog2(1) = 0`. -/
theorem witness_IndexWidthsHoldTheirRanges :
    1 ≤ (1 : Nat) ∧ clog2 1 = 0 ∧ 1 < fullBlock.chb.occupancy ∧ fullBlock.chb.occupancy = fullBlock.cfg.H := by decide

theorem witness_InstancesAreIndependent : (0 : Nat) ≠ 1 ∧ [presented fresh [0x8D], fullBlock][0]? = some (presented fresh [0x8D]) := by
  decide

/-- Two blocks with different captured records answer a stream that predicts and updates. -/
theorem witness_CaptureIsUnobservableWhileAwaitingPredict :
    let s := presented fresh [0x8D, 0x6]
    let s' : State := { s with capAddr := 5#64, capCond := true, tokTaken := true, tokScore := BitVec.ofInt _ 3 }
    s.phase = .awaitingPredict ∧ runs 2 s (nextOf fresh (run 2 s)) ∧ runs 2 s' (nextOf fresh (run 2 s')) ∧ s ≠ s' :=
  ⟨by decide, rfl, rfl, by decide⟩

/-- One remembered branch at H = 2, and a second block with another entry and another bit beyond it. -/
theorem witness_HistoryBeyondOccupancyIsUnobservable :
    let s := presented (blockOf (cfgOf 2 4 2) [(12, 1)] [(0x6, true)]) [0x2D, 0x2]
    let b : Chb 64 2 := { e := (#v[0x6#64, 0x7#64] : Vector (BitVec 64) 2), size := 1 }
    let s' : State := { s with chb := b, ghr := 0b11#2 }
    b.size = s.chb.size ∧ (∀ i, i < s.chb.occupancy → b.atAge i = s.chb.atAge i ∧ ghrBitAt 0b11#2 i = ghrBitAt s.ghr i) ∧
    runs 2 s (nextOf fresh (run 2 s)) ∧ runs 2 s' (nextOf fresh (run 2 s')) ∧ s ≠ s' := by
  refine ⟨rfl, fun i hi => ?_, rfl, rfl, by decide⟩
  obtain rfl : i = 0 := Nat.lt_one_iff.1 hi
  exact ⟨rfl, rfl⟩

theorem witness_LinesAssembleToTheirCommands : (0 : Nat) < 2 ^ Config.reference.addrW ∧ 2 ^ 64 - 1 < 2 ^ Config.reference.addrW := by
  decide

/-- The body of P5. -/
theorem witness_RepeatRepeatsTheEnclosedLines :
    assembleLines (cfgOf 1 1 1) [.cbr 0x8 true] [] [] = some [.request 0x45, .request 0x6] := by decide

end Sys2Proof.Tests
end

section
/-! PROOFS. The scope of the block (00_scope.md): the widths R12 and R14 derive from a configuration, THETA and the low-confidence
test, the range of weights and scores, and the response word as a number. -/

namespace Sys2Proof

/-! ### Bit counts -/

/-- R12: `2^(bitlen(x) - 1) ≤ x`, the lower end of the numbers of one bit length. -/
theorem two_pow_bitlen_pred_le {x : Nat} (hx : x ≠ 0) : 2 ^ (bitlen x - 1) ≤ x := by
  unfold bitlen
  rw [if_neg hx]
  exact Nat.log2_self_le hx

/-- R14: `clog2` is the lower adjoint of `2^k`: a width is large enough exactly when it is at least `clog2(n)`. -/
theorem clog2_le_iff {n k : Nat} : clog2 n ≤ k ↔ n ≤ 2 ^ k := by
  have hk : 1 ≤ 2 ^ k := Nat.one_le_two_pow
  unfold clog2
  split
  · next hn => simp only [Nat.zero_le, true_iff]; omega
  · next hn =>
    rw [Nat.succ_le_iff, Nat.log2_lt (by omega)]
    omega

theorem le_two_pow_clog2 (n : Nat) : n ≤ 2 ^ clog2 n := clog2_le_iff.1 le_rfl

/-- R14: a register of `clog2(n)` bits holds every index in `[0, n)`. -/
theorem lt_two_pow_clog2 {i n : Nat} (h : i < n) : i < 2 ^ clog2 n := h.trans_le (le_two_pow_clog2 n)

namespace Machine

/-- R12: SCORE_W has no bit to spare. -/
theorem scoreW_tight (cfg : Config) : 2 ^ (cfg.scoreW - 2) ≤ 127 * (cfg.H + 1) :=
  two_pow_bitlen_pred_le (by omega)

/-! ### The low-confidence test -/

/-- R98: the integer test, on integers. -/
theorem lowConfidence_iff_abs (cfg : Config) (s : Int) :
    lowConfidence cfg s = true ↔ 100 * |s| < 214 * ((cfg.H : Int) + 1) + 2058 := by
  unfold lowConfidence theta100
  rw [decide_eq_true_iff, Int.abs_eq_natAbs]
  omega

/-- R97: comparing with the rational THETA is comparing with the integer `100·THETA`. -/
theorem lt_theta_iff (cfg : Config) (v : Int) : (v : ℚ) < theta cfg ↔ 100 * v < 214 * ((cfg.H : Int) + 1) + 2058 := by
  unfold theta
  rw [lt_div_iff₀' (by norm_num)]
  exact_mod_cast Iff.rfl

/-- R98: `v ≤ THETA_MAX` as a test on integers. -/
theorem le_floor_thetaMax_iff (cfg : Config) (v : Int) :
    v ≤ ⌊(214 * ((cfg.H : ℚ) + 1) + 2057) / 100⌋ ↔ 100 * v ≤ 214 * ((cfg.H : Int) + 1) + 2057 := by
  rw [Int.le_floor, le_div_iff₀' (by norm_num)]
  exact_mod_cast Iff.rfl

/-! ### Weights that are never written -/

/-- R33 (b): a cell of lane 0 in a row other than 0 is listed nowhere, so it reads its reset value. -/
theorem State.weight_spareBias {s : State} (h : s.spareBiasUnwritten) {x : Cell} (hx : x.valid s.cfg)
    (hlane : x.lane = 0) (hrow : x.row ≠ 0) : s.wt.weight s.cfg x = 0 := by
  have hread : s.wt.read (x.address s.cfg) = Memory.unlisted := by
    refine Memory.read_of_not_listed fun y hy hya => hrow ?_
    rw [← Cell.address_row hx, ← hya]
    exact h y hy (by rw [hya, Cell.address_mod hx, hlane])
  simp [Memory.weight, hread, Memory.unlisted]

/-! ### The response word -/

/-- R16: the bits of a two's-complement field, as a number. -/
theorem ofInt_toNat_eq_emod (w : Nat) (v : Int) : ((BitVec.ofInt w v).toNat : Int) = v % 2 ^ w := by
  rw [BitVec.toNat_ofInt, Int.toNat_of_nonneg (Int.emod_nonneg _ (by positivity))]
  push_cast
  rfl

/-! ### The obligations -/

/-- Settles O7: the field sum of `Response.encode_toNat`, with the score read as R16 and the two enumerations by cases. -/
theorem responseWordIsTheFieldSum : Obligations.ResponseWordIsTheFieldSum := by
  unfold Obligations.ResponseWordIsTheFieldSum
  intro cfg r hr
  have hshift : (2 : Int) ^ (cfg.scoreW + 6) = 64 * 2 ^ cfg.scoreW := by ring
  refine ⟨rfl, ?_⟩
  rw [Response.encode_toNat, Nat.mod_eq_of_lt hr, ← ofInt_toNat_eq_emod, hshift]
  push_cast
  cases r.faultCode <;> cases r.phase <;> rfl

/-- Settles O10: the two ends of the range that the bit length of `127·(H+1)` fixes. -/
theorem scoreWidthHoldsEverySum : Obligations.ScoreWidthHoldsEverySum := by
  unfold Obligations.ScoreWidthHoldsEverySum
  exact fun cfg => ⟨scoreW_tight cfg, Nat.le_pred_of_lt (scoreW_holds cfg)⟩

/-- Settles O11: each form of the comparison is the integer test `100·|s| < 214·(H+1) + 2058`. -/
theorem lowConfidenceTestIsExact : Obligations.LowConfidenceTestIsExact := by
  unfold Obligations.LowConfidenceTestIsExact
  intro cfg s
  refine ⟨by unfold theta; ring, ?_, lowConfidence_iff_abs cfg s, ?_⟩
  · rw [lowConfidence_iff_abs, lt_theta_iff]
  · rw [lowConfidence_iff_abs, le_floor_thetaMax_iff]
    omega

/-- Settles O24: the bound of the sum, the occupancy bound, and the width of R12, link by link. -/
theorem scoreIsBoundedAndFits : Obligations.ScoreIsBoundedAndFits := by
  unfold Obligations.ScoreIsBoundedAndFits
  intro s c h
  have hocc : (s.chb.occupancy : Int) ≤ s.cfg.H := by exact_mod_cast s.chb.occupancy_le
  have hwidth : 127 * ((s.cfg.H : Int) + 1) < 2 ^ (s.cfg.scoreW - 1) := by exact_mod_cast scoreW_holds s.cfg
  exact ⟨abs_le.2 (s.score_range h c), by omega, by omega, s.score_stored h c⟩

/-- Settles O42: the two clauses of the invariant about the table, read through `Memory.weight`. -/
theorem weightsReadInRange : Obligations.WeightsReadInRange := by
  unfold Obligations.WeightsReadInRange
  intro s x hinv hx
  obtain ⟨hlo, hhi⟩ := Memory.weight_range (cfg := s.cfg) hinv.weightsInRange x
  exact ⟨hlo, hhi, s.weight_spareBias hinv.spareBiasUnwritten hx⟩

/-- Settles O52: `clog2_le_iff` gives that `clog2` is least, and every index is below the range its width is taken of. -/
theorem indexWidthsHoldTheirRanges : Obligations.IndexWidthsHoldTheirRanges := by
  unfold Obligations.IndexWidthsHoldTheirRanges
  intro s a i
  have hctx := contextOf_lt s.cfg a
  have hrow := s.rowAt_lt i
  have hocc := s.chb.occupancy_le
  refine ⟨fun n _ => ⟨le_two_pow_clog2 n, fun _ => clog2_le_iff.2⟩, rfl, rfl, rfl, rfl, rfl, hctx, hrow, hocc,
    lt_two_pow_clog2 hctx, lt_two_pow_clog2 hrow, lt_two_pow_clog2 (Nat.lt_succ_of_le hocc), fun hi => ?_⟩
  have hpos : i < s.cfg.H := hi.trans_le hocc
  exact ⟨lt_two_pow_clog2 hpos, lt_two_pow_clog2 (Nat.succ_lt_succ hpos)⟩

end Machine

end Sys2Proof
end

section
/-! PROOFS. The state (10_state.md): the invariant at reset and along every step, what a response reports, which command writes which
flag, and the parts of the state that no response shows. -/

namespace Sys2Proof.Machine

/-! ### What a step and a command can do -/

/-- R66, R145, R151: a step is idle, a reset, or the effect of the presented command. -/
theorem step_cases {s t : State} (h : step s = .next t) :
    (s.pending = [] ∧ t = s) ∨
    (∃ rest, s.pending = .rst :: rest ∧ t = State.applyReset { s with pending := rest }) ∨
    ∃ w rest, s.pending = .request w :: rest ∧ CommandEffect { s with pending := rest } (decode s.cfg w) t := by
  rcases hp : s.pending with _ | ⟨_ | _, rest⟩
  · rw [step_of_idle hp] at h
    cases h
    exact .inl ⟨rfl, rfl⟩
  · rw [step_of_request hp] at h
    exact .inr (.inr ⟨_, rest, rfl, exec_effect_of_next h⟩)
  · rw [step_of_rst hp] at h
    cases h
    exact .inr (.inl ⟨rest, rfl, rfl⟩)

/-- R128, R130, R132: a command is refused, or it raises a fault, or it is a PREDICT or an UPDATE that is executed, moves the phase and
leaves the fault record. -/
theorem CommandEffect.refused_or_faults_or_executes {s t : State} {i : Instr} (h : CommandEffect s i t) :
    t = s.refuse ∨
    (s.faulted = false ∧ ∃ code, code ≠ .none ∧ t = s.raiseFault code) ∨
    (s.faulted = false ∧ t.faulted = s.faulted ∧ t.faultCode = s.faultCode ∧
      ((∃ c a, i = .predict c a ∧ t.phase = .awaitingUpdate) ∨ ∃ k a, i = .update k a ∧ t.phase = .awaitingPredict)) := by
  cases h with
  | refused => exact .inl rfl
  | pendingPredict _ _ h => exact .inr (.inl ⟨h, .predictWhilePending, nofun, rfl⟩)
  | strayUpdate _ _ h => exact .inr (.inl ⟨h, .updateWithoutPredict, nofun, rfl⟩)
  | reserved00 _ _ h => exact .inr (.inl ⟨h, .reservedOpcode, nofun, rfl⟩)
  | reserved11 _ _ h => exact .inr (.inl ⟨h, .reservedOpcode, nofun, rfl⟩)
  | conditionalPredict a h => exact .inr (.inr ⟨h, rfl, rfl, .inl ⟨true, a, rfl, rfl⟩⟩)
  | unconditionalPredict a h => exact .inr (.inr ⟨h, rfl, rfl, .inl ⟨false, a, rfl, rfl⟩⟩)
  | conditionalUpdate k a h => exact .inr (.inr ⟨h, rfl, rfl, .inr ⟨k, a, rfl, rfl⟩⟩)
  | unconditionalUpdate k a h => exact .inr (.inr ⟨h, rfl, rfl, .inr ⟨k, a, rfl, rfl⟩⟩)

/-! ### The invariant, part by part -/

/-- R37: the invariant does not speak of the port streams. -/
theorem State.Inv.with_ports {s : State} (h : s.Inv) (p : List (PortEvent s.cfg.reqW)) (r : List (BitVec s.cfg.respW)) :
    State.Inv { s with pending := p, responses := r } :=
  { h with }

theorem State.faultRecordAgrees_of_clear {s : State} (hf : s.faulted = false) (hc : s.faultCode = .none) :
    s.faultRecordAgrees := by
  simp [State.faultRecordAgrees, hf, hc]

theorem State.tokenAgrees_of_awaitingPredict {s : State} (hp : s.phase = .awaitingPredict) : s.tokenAgrees := by
  simp [State.tokenAgrees, hp]

/-- R26, R27: outside a fault FAULT_CODE is 0. -/
theorem State.Inv.faultCode_eq_none {s : State} (h : s.Inv) (hf : s.faulted = false) : s.faultCode = .none :=
  h.faultRecordAgrees.1.1 hf

/-- R30 (b), R150. -/
theorem State.inv_resetOf (cfg : Config) : (State.resetOf cfg).Inv where
  canonical := ⟨.nil, nofun⟩
  cellsExist := nofun
  weightsInRange := nofun
  spareBiasUnwritten := nofun
  tailZero k _ := Vector.getElem_replicate k.isLt
  faultRecordAgrees := State.faultRecordAgrees_of_clear rfl rfl
  tokenAgrees := State.tokenAgrees_of_awaitingPredict rfl

/-- R131, R132: fault entry keeps the invariant if the code recorded is not 0 and fits the phase. -/
theorem State.Inv.raiseFault {s : State} (h : s.Inv) {code : FaultCode} (hcode : code ≠ .none)
    (hstray : code = .updateWithoutPredict → s.phase = .awaitingPredict)
    (hpending : code = .predictWhilePending → s.phase = .awaitingUpdate) : (s.raiseFault code).Inv :=
  { h with faultRecordAgrees := ⟨by simp [hcode], hstray, hpending⟩ }

/-- R110, R113: the token a conditional PREDICT opens holds the score exactly. -/
theorem State.Inv.predictConditional {s : State} (h : s.Inv) (hf : s.faulted = false) (a : BitVec s.cfg.addrW) :
    (s.predictConditional a).Inv :=
  have hscore := s.score_stored h.weightsInRange (contextOf s.cfg a.toNat)
  { h with
    faultRecordAgrees := State.faultRecordAgrees_of_clear hf (h.faultCode_eq_none hf)
    tokenAgrees := fun _ => ⟨hscore, congrArg takenOf hscore.symm⟩ }

theorem State.Inv.predictUnconditional {s : State} (h : s.Inv) (hf : s.faulted = false) (a : BitVec s.cfg.addrW) :
    (s.predictUnconditional a).Inv :=
  { h with
    faultRecordAgrees := State.faultRecordAgrees_of_clear hf (h.faultCode_eq_none hf)
    tokenAgrees := fun _ => ⟨rfl, BitVec.ofInt_ofNat _ _⟩ }

theorem State.Inv.updateUnconditional {s : State} (h : s.Inv) (hf : s.faulted = false) : s.updateUnconditional.Inv :=
  { h with
    faultRecordAgrees := State.faultRecordAgrees_of_clear hf (h.faultCode_eq_none hf)
    tokenAgrees := State.tokenAgrees_of_awaitingPredict rfl }

/-! ### The weight table after an UPDATE -/

/-- R92: no command visits a cell of lane 0 outside row 0. -/
theorem State.accessCells_row_of_lane {s : State} {c : Nat} {x : Cell} (hx : x ∈ s.accessCells c) (hlane : x.lane = 0) :
    x.row = 0 := by
  rcases List.mem_cons.1 hx with rfl | hx
  · rfl
  · obtain ⟨i, -, rfl⟩ := List.mem_map.1 hx
    exact absurd hlane i.succ_ne_zero

/-- R94, R102: what the table lists after an UPDATE was listed before, or is the trained value of a visited cell. -/
theorem State.mem_trained {s : State} {taken : Bool} {y : Host.Cell} (hy : y ∈ s.trained taken) :
    y ∈ s.wt ∨ ∃ x ∈ s.accessCells (contextOf s.cfg s.capAddr.toNat), y.1 = x.address s.cfg ∧ y.2 ≠ 0x80#8 := by
  unfold State.trained at hy
  split at hy
  · refine (Memory.mem_trainAll hy).imp_right fun ⟨⟨u, hu, haddr⟩, hval⟩ => ⟨u.1, ?_, haddr, hval⟩
    rw [← s.trainTargets_cells taken]
    exact List.mem_map_of_mem hu
  · exact .inl hy

theorem State.trained_cellsExist {s : State} (h : s.cellsExist) {taken : Bool} {y : Host.Cell} (hy : y ∈ s.trained taken) :
    y.1 < s.cfg.cells := by
  rcases State.mem_trained hy with hy | ⟨x, hx, haddr, -⟩
  · exact h y hy
  · rw [haddr]
    exact Cell.address_lt (s.accessCells_valid (contextOf_lt _ _) x hx)

theorem State.trained_weightsInRange {s : State} (h : s.weightsInRange) {taken : Bool} {y : Host.Cell}
    (hy : y ∈ s.trained taken) : y.2 ≠ 0x80#8 := by
  rcases State.mem_trained hy with hy | ⟨-, -, -, hval⟩
  · exact h y hy
  · exact hval

theorem State.trained_spareBiasUnwritten {s : State} (h : s.spareBiasUnwritten) {taken : Bool} {y : Host.Cell}
    (hy : y ∈ s.trained taken) (hlane : y.1 % (s.cfg.H + 1) = 0) : y.1 / (s.cfg.H + 1) % s.cfg.M = 0 := by
  rcases State.mem_trained hy with hy | ⟨x, hx, haddr, -⟩
  · exact h y hy hlane
  · have hvalid := s.accessCells_valid (contextOf_lt _ _) x hx
    rw [haddr, Cell.address_mod hvalid] at hlane
    rw [haddr, Cell.address_row hvalid]
    exact State.accessCells_row_of_lane hx hlane

/-- R118 to R122: training keeps the four clauses about the table, the push keeps the zeros beyond CHB_SIZE. -/
theorem State.Inv.updateConditional {s : State} (h : s.Inv) (hf : s.faulted = false) (taken : Bool) :
    (s.updateConditional taken).Inv where
  canonical := s.updateConditional_wt taken ▸ State.trained_wf h.canonical taken
  cellsExist _ hy := State.trained_cellsExist h.cellsExist (s.updateConditional_wt taken ▸ hy)
  weightsInRange _ hy := State.trained_weightsInRange h.weightsInRange (s.updateConditional_wt taken ▸ hy)
  spareBiasUnwritten _ hy := State.trained_spareBiasUnwritten h.spareBiasUnwritten (s.updateConditional_wt taken ▸ hy)
  tailZero := s.chb.push_tailEntry s.capAddr h.tailZero
  faultRecordAgrees := State.faultRecordAgrees_of_clear hf (h.faultCode_eq_none hf)
  tokenAgrees := State.tokenAgrees_of_awaitingPredict rfl

/-- Every effect a command can have keeps the invariant. -/
theorem CommandEffect.inv {s t : State} {i : Instr} (he : CommandEffect s i t) (h : s.Inv) : t.Inv := by
  cases he with
  | refused => exact h.with_ports _ _
  | pendingPredict _ _ _ hp => exact h.raiseFault nofun nofun fun _ => hp
  | strayUpdate _ _ _ hp => exact h.raiseFault nofun (fun _ => hp) nofun
  | reserved00 => exact h.raiseFault nofun nofun nofun
  | reserved11 => exact h.raiseFault nofun nofun nofun
  | conditionalPredict _ hf => exact h.predictConditional hf _
  | unconditionalPredict _ hf => exact h.predictUnconditional hf _
  | conditionalUpdate k _ hf => exact h.updateConditional hf k
  | unconditionalUpdate _ _ hf => exact h.updateUnconditional hf

/-! ### The response to a request -/

/-- R63, R64, R130: the one response of each effect. -/
theorem CommandEffect.reports_status {s t : State} {i : Instr} (h : CommandEffect s i t) :
    ∃ r : Response,
      t.responseWords = s.responseWords ++ [(r.encode s.cfg).toNat] ∧
      (r.phase, r.faulted, r.faultCode) = t.statusView ∧ r.target = 0 ∧
      (r.err = true ↔ t.faulted = true) ∧ (r.err = true → r.taken = false ∧ r.score = 0) := by
  cases h with
  | refused _ h => exact ⟨_, s.refuse_responseWords, rfl, rfl, by simp [h], fun _ => ⟨rfl, rfl⟩⟩
  | pendingPredict => exact ⟨_, s.raiseFault_responseWords _, rfl, rfl, by simp, fun _ => ⟨rfl, rfl⟩⟩
  | strayUpdate => exact ⟨_, s.raiseFault_responseWords _, rfl, rfl, by simp, fun _ => ⟨rfl, rfl⟩⟩
  | reserved00 => exact ⟨_, s.raiseFault_responseWords _, rfl, rfl, by simp, fun _ => ⟨rfl, rfl⟩⟩
  | reserved11 => exact ⟨_, s.raiseFault_responseWords _, rfl, rfl, by simp, fun _ => ⟨rfl, rfl⟩⟩
  | conditionalPredict _ h => exact ⟨_, s.predictConditional_responseWords _, rfl, rfl, by simp [h], nofun⟩
  | unconditionalPredict _ h => exact ⟨_, s.predictUnconditional_responseWords _, rfl, rfl, by simp [h], nofun⟩
  | conditionalUpdate _ _ h => exact ⟨_, s.updateConditional_responseWords _, rfl, rfl, by simp [h], nofun⟩
  | unconditionalUpdate _ _ h => exact ⟨_, s.updateUnconditional_responseWords, rfl, rfl, by simp [h], nofun⟩

/-! ### Two runs side by side -/

/-- A relation that every step keeps relates the ends of two runs of equal length. -/
theorem runs_related {R : State → State → Prop}
    (hstep : ∀ s s' t, R s s' → step s = .next t → ∃ t', step s' = .next t' ∧ R t t')
    {n : Nat} {s s' t t' : State} (h : R s s') (ht : runs n s t) (ht' : runs n s' t') : R t t' := by
  induction n generalizing s s' with
  | zero =>
    rw [runs_zero] at ht ht'
    subst ht ht'
    exact h
  | succ n ih =>
    obtain ⟨u, hu, ht⟩ := runs_succ.1 ht
    obtain ⟨u', hu', ht'⟩ := runs_succ.1 ht'
    obtain ⟨v, hv, huv⟩ := hstep _ _ _ h hu
    rw [hu'] at hv
    cases hv
    exact ih huv ht ht'

/-! ### The captured record and the token in PHASE 0 -/

/-- The same block with another captured record and another token (R22 to R25). -/
def State.withCaptured (s : State) (a : BitVec s.cfg.addrW) (c k : Bool) (x : BitVec s.cfg.scoreW) : State :=
  { s with capAddr := a, capCond := c, tokTaken := k, tokScore := x }

/-- The second block is the first one, or both are in PHASE 0 and differ in the captured record and the token only. -/
inductive CaptureHidden (s : State) : State → Prop where
  | same : CaptureHidden s s
  | differs {s' : State} (hp : s.phase = .awaitingPredict) (a : BitVec s.cfg.addrW) (c k : Bool) (x : BitVec s.cfg.scoreW)
      (h : s' = s.withCaptured a c k x) : CaptureHidden s s'

theorem CaptureHidden.responseWords_eq {s s' : State} (h : CaptureHidden s s') : s.responseWords = s'.responseWords := by
  cases h with
  | same => rfl
  | differs _ _ _ _ _ h => rw [h]; rfl

/-- R110: in PHASE 0 an executed PREDICT writes the whole captured record and the token, and every other command leaves them unread. -/
theorem CommandEffect.captureHidden {s t : State} {i : Instr} (h : CommandEffect s i t) (hp : s.phase = .awaitingPredict)
    (a : BitVec s.cfg.addrW) (c k : Bool) (x : BitVec s.cfg.scoreW) :
    ∃ t', exec i (s.withCaptured a c k x) = .next t' ∧ CaptureHidden t t' := by
  cases h with
  | refused i h => exact ⟨_, exec_refused i h, .differs hp a c k x rfl⟩
  | pendingPredict _ _ _ hu => exact nomatch hp.symm.trans hu
  | strayUpdate o b h => exact ⟨_, exec_update_stray o b h hp, .differs hp a c k x rfl⟩
  | reserved00 f b h => exact ⟨_, exec_reserved00 f b h, .differs hp a c k x rfl⟩
  | reserved11 f b h => exact ⟨_, exec_reserved11 f b h, .differs hp a c k x rfl⟩
  | conditionalPredict b h => exact ⟨_, exec_predict_conditional b h hp, .same⟩
  | unconditionalPredict b h => exact ⟨_, exec_predict_unconditional b h hp, .same⟩
  | conditionalUpdate _ _ _ hu => exact nomatch hp.symm.trans hu
  | unconditionalUpdate _ _ _ hu => exact nomatch hp.symm.trans hu

theorem CaptureHidden.step {s s' t : State} (h : CaptureHidden s s') (ht : step s = .next t) :
    ∃ t', Machine.step s' = .next t' ∧ CaptureHidden t t' := by
  cases h with
  | same => exact ⟨t, ht, .same⟩
  | differs hp a c k x hs' =>
    subst hs'
    rcases step_cases ht with ⟨hpend, rfl⟩ | ⟨rest, hpend, rfl⟩ | ⟨w, rest, hpend, he⟩
    · exact ⟨_, step_of_idle hpend, .differs hp a c k x rfl⟩
    · exact ⟨_, step_of_rst (s := s.withCaptured a c k x) hpend, .same⟩
    · rw [step_of_request (s := s.withCaptured a c k x) hpend]
      exact he.captureHidden hp a c k x

/-! ### The history beyond CHB_SIZE -/

/-- Two buffers and two registers that agree on every position below the same occupancy (R30, R31). -/
structure HistoryAgrees {w h : Nat} (b b' : Chb w h) (g g' : BitVec h) : Prop where
  size : b'.size = b.size
  entry : ∀ i, i < b.occupancy → b'.atAge i = b.atAge i
  bit : ∀ i, i < b.occupancy → ghrBitAt g' i = ghrBitAt g i

theorem HistoryAgrees.refl {w h : Nat} (b : Chb w h) (g : BitVec h) : HistoryAgrees b b g g :=
  ⟨rfl, fun _ _ => rfl, fun _ _ => rfl⟩

/-- R76, R85: pushing the same address and the same outcome keeps the agreement. -/
theorem HistoryAgrees.push {w h : Nat} {b b' : Chb w h} {g g' : BitVec h} (hist : HistoryAgrees b b' g g') (a : BitVec w)
    (o : Bool) : HistoryAgrees (b.push a) (b'.push a) (ghrPush g o) (ghrPush g' o) where
  size := by simp [Chb.push, hist.size]
  entry i hi := by
    rw [Chb.push_occupancy] at hi
    cases i with
    | zero => rw [Chb.push_atAge_zero b a (by omega), Chb.push_atAge_zero b' a (by omega)]
    | succ i => rw [Chb.push_atAge_succ, Chb.push_atAge_succ, hist.entry i (by omega)]
  bit i hi := by
    rw [Chb.push_occupancy] at hi
    cases i with
    | zero => rw [ghrPush_bit_zero g o (by omega), ghrPush_bit_zero g' o (by omega)]
    | succ i => rw [ghrPush_bit_succ, ghrPush_bit_succ, hist.bit i (by omega)]

/-- The same block with another history. -/
def State.withHistory (s : State) (b : Chb s.cfg.addrW s.cfg.H) (g : BitVec s.cfg.H) : State := { s with chb := b, ghr := g }

section Agreement

variable {s : State} {b : Chb s.cfg.addrW s.cfg.H} {g : BitVec s.cfg.H}

theorem State.withHistory_positions (hist : HistoryAgrees s.chb b s.ghr g) :
    (s.withHistory b g).positions = s.positions :=
  congrArg (fun n : Fin (s.cfg.H + 1) => List.range n.val) hist.size

/-- R91: a visited history cell is chosen by an entry below the occupancy. -/
theorem State.withHistory_historyCell (hist : HistoryAgrees s.chb b s.ghr g) (c : Nat) {i : Nat} (hi : i ∈ s.positions) :
    (s.withHistory b g).historyCell c i = s.historyCell c i := by
  have hentry : (s.withHistory b g).chb.atAge i = s.chb.atAge i := hist.entry i ((s.mem_positions i).1 hi)
  have hrow : (s.withHistory b g).rowAt i = s.rowAt i := congrArg (fun e => e.toNat % s.cfg.M) hentry
  unfold State.historyCell
  rw [hrow]

theorem State.withHistory_bit (hist : HistoryAgrees s.chb b s.ghr g) {i : Nat} (hi : i ∈ s.positions) :
    ghrBitAt (s.withHistory b g).ghr i = ghrBitAt s.ghr i :=
  hist.bit i ((s.mem_positions i).1 hi)

/-- R105: the score reads the history below the occupancy only. -/
theorem State.withHistory_score (hist : HistoryAgrees s.chb b s.ghr g) (c : Nat) :
    (s.withHistory b g).score c = s.score c := by
  unfold State.score
  rw [State.withHistory_positions hist]
  congr 2
  refine List.map_congr_left fun i hi => ?_
  unfold State.term
  rw [State.withHistory_historyCell hist c hi, State.withHistory_bit hist hi]
  rfl

/-- R119, R120: training visits the history below the occupancy only. -/
theorem State.withHistory_trainTargets (hist : HistoryAgrees s.chb b s.ghr g) (taken : Bool) :
    (s.withHistory b g).trainTargets taken = s.trainTargets taken := by
  unfold State.trainTargets
  rw [State.withHistory_positions hist]
  refine congrArg (_ :: ·) (List.map_congr_left fun i hi => ?_)
  rw [State.withHistory_bit hist hi]
  exact congrArg (·, _) (State.withHistory_historyCell hist _ hi)

theorem State.withHistory_trained (hist : HistoryAgrees s.chb b s.ghr g) (taken : Bool) :
    (s.withHistory b g).trained taken = s.trained taken := by
  unfold State.trained
  rw [State.withHistory_trainTargets hist]
  rfl

theorem State.withHistory_predictConditional (hist : HistoryAgrees s.chb b s.ghr g) (a : BitVec s.cfg.addrW) :
    (s.withHistory b g).predictConditional a = (s.predictConditional a).withHistory b g := by
  unfold State.predictConditional
  rw [State.withHistory_score hist]
  rfl

theorem State.withHistory_updateConditional (hist : HistoryAgrees s.chb b s.ghr g) (taken : Bool) :
    (s.withHistory b g).updateConditional taken =
      (s.updateConditional taken).withHistory (b.push s.capAddr) (ghrPush g taken) := by
  unfold State.updateConditional
  rw [State.withHistory_trained hist]
  rfl

end Agreement

/-- The second block differs from the first in the history beyond the occupancy only. -/
inductive HistoryHidden (s : State) : State → Prop where
  | differs {s' : State} (b : Chb s.cfg.addrW s.cfg.H) (g : BitVec s.cfg.H) (hist : HistoryAgrees s.chb b s.ghr g)
      (h : s' = s.withHistory b g) : HistoryHidden s s'

theorem HistoryHidden.responseWords_eq {s s' : State} (h : HistoryHidden s s') : s.responseWords = s'.responseWords := by
  obtain ⟨b, g, -, rfl⟩ := h
  rfl

/-- R84: a command does to both blocks what it does to one, and leaves the history differing beyond the occupancy only. -/
theorem CommandEffect.historyHidden {s t : State} {i : Instr} (h : CommandEffect s i t) {b : Chb s.cfg.addrW s.cfg.H}
    {g : BitVec s.cfg.H} (hist : HistoryAgrees s.chb b s.ghr g) :
    ∃ t', exec i (s.withHistory b g) = .next t' ∧ HistoryHidden t t' := by
  cases h with
  | refused i h => exact ⟨_, exec_refused i h, .differs b g hist rfl⟩
  | pendingPredict c a h hp => exact ⟨_, exec_predict_pending c a h hp, .differs b g hist rfl⟩
  | strayUpdate k a h hp => exact ⟨_, exec_update_stray k a h hp, .differs b g hist rfl⟩
  | reserved00 f a h => exact ⟨_, exec_reserved00 f a h, .differs b g hist rfl⟩
  | reserved11 f a h => exact ⟨_, exec_reserved11 f a h, .differs b g hist rfl⟩
  | unconditionalPredict a h hp => exact ⟨_, exec_predict_unconditional a h hp, .differs b g hist rfl⟩
  | unconditionalUpdate k a h hp hc => exact ⟨_, exec_update_unconditional k a h hp hc, .differs b g hist rfl⟩
  | conditionalPredict a h hp =>
    exact ⟨_, exec_predict_conditional a h hp, .differs b g hist (State.withHistory_predictConditional hist _)⟩
  | conditionalUpdate k a h hp hc =>
    exact ⟨_, exec_update_conditional k a h hp hc,
      .differs _ _ (hist.push s.capAddr k) (State.withHistory_updateConditional hist k)⟩

theorem HistoryHidden.step {s s' t : State} (h : HistoryHidden s s') (ht : step s = .next t) :
    ∃ t', Machine.step s' = .next t' ∧ HistoryHidden t t' := by
  obtain ⟨b, g, hist, rfl⟩ := h
  rcases step_cases ht with ⟨hpend, rfl⟩ | ⟨rest, hpend, rfl⟩ | ⟨w, rest, hpend, he⟩
  · exact ⟨_, step_of_idle hpend, .differs b g hist rfl⟩
  · exact ⟨_, step_of_rst (s := s.withHistory b g) hpend, .differs _ _ (.refl _ _) rfl⟩
  · rw [step_of_request (s := s.withHistory b g) hpend]
    exact he.historyHidden hist

/-! ### The obligations -/

/-- Settles O41: idle and reset by their equations, a request by the effect of its command. -/
theorem everyStepKeepsTheInvariant : Obligations.EveryStepKeepsTheInvariant := by
  unfold Obligations.EveryStepKeepsTheInvariant
  intro s t h ht
  rcases step_cases ht with ⟨-, rfl⟩ | ⟨rest, -, rfl⟩ | ⟨w, rest, -, he⟩
  · exact h
  · exact (State.inv_resetOf s.cfg).with_ports rest s.responses
  · exact he.inv (h.with_ports rest s.responses)

/-- Settles O17: the response of the command's effect. -/
theorem everyResponseReportsTheStatus : Obligations.EveryResponseReportsTheStatus := by
  unfold Obligations.EveryResponseReportsTheStatus
  intro s t w rest hpend ht
  rw [step_of_request hpend] at ht
  exact (exec_effect_of_next ht).reports_status

/-- Settles O36: a refusal writes no flag, fault entry writes the fault record only, and an executed command writes PHASE only. -/
theorem flagsAreWrittenOnlyAsTheRulesSay : Obligations.FlagsAreWrittenOnlyAsTheRulesSay := by
  unfold Obligations.FlagsAreWrittenOnlyAsTheRulesSay
  intro s t i ht
  rcases (exec_effect_of_next ht).refused_or_faults_or_executes with
    rfl | ⟨hf, code, hcode, rfl⟩ | ⟨hf, hfaulted, hfaultCode, hphase⟩
  · exact ⟨fun hne => absurd rfl hne, fun hne => absurd rfl hne⟩
  · exact ⟨fun hne => absurd rfl hne, fun _ => ⟨hf, rfl, hcode, rfl, rfl, rfl, rfl⟩⟩
  · exact ⟨fun _ => ⟨hf, hfaulted.trans hf, hphase⟩, fun hne => absurd (Prod.ext hfaulted hfaultCode) hne⟩

/-- Settles O54: `CaptureHidden` holds at the start and is kept by every step. -/
theorem captureIsUnobservableWhileAwaitingPredict : Obligations.CaptureIsUnobservableWhileAwaitingPredict := by
  unfold Obligations.CaptureIsUnobservableWhileAwaitingPredict
  intro s a c k x n t t' hp ht ht'
  exact (runs_related (fun _ _ _ => CaptureHidden.step) (.differs hp a c k x rfl) ht ht').responseWords_eq

/-- Settles O55: `HistoryHidden` holds at the start and is kept by every step. -/
theorem historyBeyondOccupancyIsUnobservable : Obligations.HistoryBeyondOccupancyIsUnobservable := by
  unfold Obligations.HistoryBeyondOccupancyIsUnobservable
  intro s b g n t t' hsize hbelow ht ht'
  have hist : HistoryAgrees s.chb b s.ghr g := ⟨hsize, fun i hi => (hbelow i hi).1, fun i hi => (hbelow i hi).2⟩
  exact (runs_related (fun _ _ _ => HistoryHidden.step) (.differs b g hist rfl) ht ht').responseWords_eq

/-- Settles O40: the reference configuration is one of all. -/
theorem invariantHoldsAtReset : Obligations.InvariantHoldsAtReset := by
  unfold Obligations.InvariantHoldsAtReset
  exact ⟨State.inv_resetOf, State.inv_resetOf Config.reference⟩

end Sys2Proof.Machine
end

section
/-! PROOFS. The memories (20_memory.md): the byte transport, the frame of PREDICT, the one writer of the weight table, the presented
command, and the table as an array of cells. -/

namespace Sys2Proof

/-! ### Words as bytes -/

/-- R56 to R60: the fields of an encoded command, read back, are the command. -/
theorem decode_encode {cfg : Config} {i : Instr} (h : i.wf cfg = true) : decode cfg (encode cfg i) = i := by
  obtain ⟨hop, hflag, haddr⟩ := Laws.RequestFields.of_fields i cfg h
  unfold decode
  rw [hop, hflag, haddr]
  cases i <;> rfl

/-- R45: byte `k` of a word of any width. -/
theorem wordToBytes_getElem? {n : Nat} (v : BitVec n) {k : Nat} (hk : k < (n + 7) / 8) :
    (wordToBytes v)[k]?.map BitVec.toNat = some (v.toNat / 256 ^ k % 256) :=
  natToBytes_getElem? (wordBytes n) v.toNat hk

theorem decodeBytes_encodeBytes {cfg : Config} {i : Instr} (h : i.wf cfg = true) :
    decodeBytes cfg (encodeBytes cfg i) = .ok i := by
  rw [decodeBytes, encodeBytes, wordOfBytes_wordToBytes, Except.map, decode_encode h]

namespace Machine

theorem Response.decodeBytes_encodeBytes (cfg : Config) (r : Response) :
    Response.decodeBytes cfg (r.encodeBytes cfg) = .ok (Response.decode cfg (r.encode cfg)) := by
  rw [Response.decodeBytes, Response.encodeBytes, wordOfBytes_wordToBytes, Except.map]

/-! ### What a command makes of the weight table -/

/-- R42, R117, R118: only an executed UPDATE of a conditional branch gives the table another value, that of its training. -/
theorem CommandEffect.wt_eq_or_trained {s t : State} {i : Instr} (h : CommandEffect s i t) :
    t.wt = s.wt ∨
    (s.faulted = false ∧ s.phase = .awaitingUpdate ∧ s.capCond = true ∧
      ∃ taken target, i = .update taken target ∧ t.wt = s.trained taken) := by
  cases h with
  | conditionalUpdate taken target hf hp hc => exact .inr ⟨hf, hp, hc, taken, target, rfl, rfl⟩
  | refused | pendingPredict | conditionalPredict | unconditionalPredict | strayUpdate | unconditionalUpdate | reserved00
  | reserved11 => exact .inl rfl

/-- R100, R118: a byte that the training changes is one of a visited cell, and the gate is open. -/
theorem State.gate_open_of_read_trained_ne {s : State} {taken : Bool} {k : Nat} (h : (s.trained taken).read k ≠ s.wt.read k) :
    s.trains taken = true ∧ k ∈ (s.accessCells (contextOf s.cfg s.capAddr.toNat)).map (Cell.address s.cfg) := by
  refine ⟨?_, Decidable.of_not_not fun hk => h (s.read_trained_other taken hk)⟩
  cases hgate : s.trains taken with
  | true => rfl
  | false => exact absurd (by rw [State.trained_closed hgate]) h

/-! ### The obligations -/

/-- Settles O6: the bytes of a word read back as the word, and the coding of the word gives the command or the response fields. -/
theorem byteTransportIsLittleEndian : Obligations.ByteTransportIsLittleEndian := by
  unfold Obligations.ByteTransportIsLittleEndian
  refine ⟨fun cfg i h => ?_, fun cfg r => ?_, fun _ => wordOfBytes_wordToBytes⟩
  · exact ⟨decodeBytes_encodeBytes h, wordToBytes_length _, fun _ => wordToBytes_getElem? (encode cfg i)⟩
  · exact ⟨r.decodeBytes_encodeBytes cfg, wordToBytes_length _, fun _ => wordToBytes_getElem? (r.encode cfg)⟩

/-- Settles O22: a PREDICT is refused, or it faults, or it captures its inputs; none of the three names the table or the history. -/
theorem predictChangesOnlyCaptureAndToken : Obligations.PredictChangesOnlyCaptureAndToken := by
  unfold Obligations.PredictChangesOnlyCaptureAndToken
  intro s t c a ht
  cases exec_effect_of_next ht with
  | refused => exact ⟨fun _ => rfl, rfl, rfl, rfl, fun _ _ => ⟨rfl, rfl⟩, fun _ => ⟨rfl, rfl⟩⟩
  | pendingPredict _ _ _ hp =>
    exact ⟨fun _ => rfl, rfl, rfl, rfl, fun _ hp' => absurd (hp'.symm.trans hp) nofun, fun _ => ⟨rfl, rfl⟩⟩
  | conditionalPredict _ hf hp | unconditionalPredict _ hf hp =>
    exact ⟨fun _ => rfl, rfl, rfl, rfl, fun _ _ => ⟨rfl, rfl⟩, fun hn => absurd ⟨hf, hp⟩ hn⟩

/-- Settles O37: the table of the next state is the one before, or the trained one of an UPDATE, which reads otherwise only at the
visited cells and only through an open gate. -/
theorem onlyTrainingChangesTheWeights : Obligations.OnlyTrainingChangesTheWeights := by
  unfold Obligations.OnlyTrainingChangesTheWeights
  intro s t i k ht hne
  rcases (exec_effect_of_next ht).wt_eq_or_trained with hwt | ⟨hf, hp, hc, taken, target, hi, hwt⟩
  · exact absurd (by rw [hwt]) hne
  · rw [hwt] at hne
    obtain ⟨hgate, hk⟩ := State.gate_open_of_read_trained_ne hne
    exact ⟨hf, hp, hc, ⟨taken, target, hi, (s.trains_iff taken).1 hgate⟩, hk⟩

/-- Settles O12: the step on a request, with the coding round trip for a command and the width for a word given as a number. -/
theorem stepRunsThePresentedCommand : Obligations.StepRunsThePresentedCommand := by
  unfold Obligations.StepRunsThePresentedCommand
  refine ⟨fun s i rest hwf hpend => ?_, fun _ _ _ => step_of_request, fun s nbits w hw _ => ?_⟩
  · rw [step_of_request hpend, decode_encode hwf]
  · rw [step_of_request (s.withFetchWord_pending nbits w), Nat.mod_eq_of_lt hw]
    rfl

/-- Settles O50: the linear address is the mixed-radix number of its cell, and a canonical list is its reads. -/
theorem weightTableIsAnArrayOfCells : Obligations.WeightTableIsAnArrayOfCells := by
  unfold Obligations.WeightTableIsAnArrayOfCells
  exact ⟨fun _ _ _ hx hy => ⟨Cell.address_lt hx, Cell.address_injective hx hy⟩, fun _ _ => Memory.eq_of_read⟩

end Machine

end Sys2Proof
end

section
/-! PROOFS. The encodings (30_encoding.md): the coding of requests and responses, one answer for each presented request, the lines
of a program, and the listing of a response. -/

namespace Sys2Proof

/-! ### Request words -/

/-- R58: the operand of a well-formed command is in range. -/
theorem Instr.wf_iff {cfg : Config} {i : Instr} : i.wf cfg = true ↔ i.addr < 2 ^ cfg.addrW := by simp [Instr.wf]

/-- R55 to R58: the word of a well-formed command is the sum of its shifted fields. -/
theorem encode_toNat_of_wf {cfg : Config} {i : Instr} (h : i.wf cfg = true) :
    (encode cfg i).toNat = i.opcode.toNat + 4 * i.flag.toNat + 8 * i.addr := by
  rw [encode_toNat, Nat.mod_eq_of_lt (Instr.wf_iff.1 h)]
  ring

/-- R56: the opcode bits of a word as its residue. -/
theorem requestOp_eq_iff {cfg : Config} {w : BitVec cfg.reqW} {op : BitVec 2} :
    requestOp cfg w = op ↔ w.toNat % 4 = op.toNat := by
  rw [← BitVec.toNat_inj, requestOp_toNat]

/-- R59, R60: a word whose fields are those of a command decodes to that command. -/
theorem decode_eq_of_fields {cfg : Config} {w : BitVec cfg.reqW} {i : Instr} (hop : requestOp cfg w = i.opcode)
    (hflag : requestF cfg w = i.flag) (haddr : requestA cfg w = i.addr) : decode cfg w = i := by
  unfold decode
  rw [hop, hflag, haddr]
  cases i <;> rfl

/-- R59, R60: every value of the two opcode bits, with any flag and operand, is the opcode of a command. -/
theorem exists_instr_of_fields (op : BitVec 2) (f : Bool) (a : Nat) :
    ∃ i : Instr, i.opcode = op ∧ i.flag = f ∧ i.addr = a := by
  have hop : op = 0#2 ∨ op = 1#2 ∨ op = 2#2 ∨ op = 3#2 := by revert op; decide
  rcases hop with rfl | rfl | rfl | rfl
  · exact ⟨.reservedOp00 f a, rfl, rfl, rfl⟩
  · exact ⟨.predict f a, rfl, rfl, rfl⟩
  · exact ⟨.update f a, rfl, rfl, rfl⟩
  · exact ⟨.reservedOp11 f a, rfl, rfl, rfl⟩

/-- R68: the decoder keeps all three fields of the word. -/
theorem decode_fields (cfg : Config) (w : BitVec cfg.reqW) :
    (decode cfg w).opcode = requestOp cfg w ∧ (decode cfg w).flag = requestF cfg w ∧ (decode cfg w).addr = requestA cfg w := by
  obtain ⟨i, hop, hflag, haddr⟩ := exists_instr_of_fields (requestOp cfg w) (requestF cfg w) (requestA cfg w)
  rw [decode_eq_of_fields hop.symm hflag.symm haddr.symm]
  exact ⟨hop, hflag, haddr⟩

/-- R58: the operand field has ADDR_W bits. -/
theorem requestA_lt (cfg : Config) (w : BitVec cfg.reqW) : requestA cfg w < 2 ^ cfg.addrW := BitVec.isLt _

theorem decode_wf (cfg : Config) (w : BitVec cfg.reqW) : (decode cfg w).wf cfg = true := by
  obtain ⟨-, -, haddr⟩ := decode_fields cfg w
  rw [Instr.wf_iff, haddr]
  exact requestA_lt cfg w

/-- R57: bit 2 of the word, as a number. -/
theorem requestF_toNat (cfg : Config) (w : BitVec cfg.reqW) : (requestF cfg w).toNat = w.toNat / 4 % 2 := by
  rw [requestF_eq]
  rcases Nat.mod_two_eq_zero_or_one (w.toNat / 4) with h | h <;> simp [h]

/-- R68: no two words decode to one command: the command's word is the word decoded. -/
theorem encode_decode (cfg : Config) (w : BitVec cfg.reqW) : encode cfg (decode cfg w) = w := by
  obtain ⟨hop, hflag, haddr⟩ := decode_fields cfg w
  apply BitVec.eq_of_toNat_eq
  rw [encode_toNat_of_wf (decode_wf cfg w), hop, hflag, haddr, requestOp_toNat, requestF_toNat, requestA_eq]
  omega

namespace Machine

/-! ### Response words -/

section ResponseFields

variable (cfg : Config) (r : Response)

/-- R63: the fields of a response word, in a word whose width is written as the sum of theirs. -/
def Response.fields : BitVec (cfg.addrW + cfg.scoreW + 1 + 1 + 2 + 1 + 1) :=
  BitVec.ofNat cfg.addrW r.target ++ BitVec.ofInt cfg.scoreW r.score ++ BitVec.ofBool r.taken
    ++ BitVec.ofBool r.phase.bit ++ r.faultCode.bits ++ BitVec.ofBool r.faulted ++ BitVec.ofBool r.err

theorem Response.encode_err : (r.encode cfg).getLsbD 0 = r.err := by
  show (r.fields cfg).getLsbD 0 = _
  simp [Response.fields, BitVec.getElem_append]

theorem Response.encode_faulted : (r.encode cfg).getLsbD 1 = r.faulted := by
  show (r.fields cfg).getLsbD 1 = _
  simp [Response.fields, BitVec.getElem_append]

theorem Response.encode_faultCode : (r.encode cfg).extractLsb' 2 2 = r.faultCode.bits := by
  show (r.fields cfg).extractLsb' 2 2 = _
  simp [Response.fields, BitVec.extractLsb'_append_eq_of_le, BitVec.extractLsb'_append_eq_right]

theorem Response.encode_phase : (r.encode cfg).getLsbD 4 = r.phase.bit := by
  show (r.fields cfg).getLsbD 4 = _
  simp [Response.fields, BitVec.getElem_append]

theorem Response.encode_taken : (r.encode cfg).getLsbD 5 = r.taken := by
  show (r.fields cfg).getLsbD 5 = _
  simp [Response.fields, BitVec.getElem_append]

theorem Response.encode_score : (r.encode cfg).extractLsb' 6 cfg.scoreW = BitVec.ofInt cfg.scoreW r.score := by
  show (r.fields cfg).extractLsb' 6 cfg.scoreW = _
  simp [Response.fields, BitVec.extractLsb'_append_eq_of_le, BitVec.extractLsb'_append_eq_right]

theorem Response.encode_target :
    (r.encode cfg).extractLsb' (cfg.scoreW + 6) cfg.addrW = BitVec.ofNat cfg.addrW r.target := by
  show (r.fields cfg).extractLsb' (cfg.scoreW + 6) cfg.addrW = _
  simp [Response.fields, BitVec.extractLsb'_append_eq_of_le]

end ResponseFields

/-- R63: reading a response word back reduces the score and the target to the widths of their fields. -/
theorem Response.decode_encode (cfg : Config) (r : Response) :
    Response.decode cfg (r.encode cfg) =
      { r with
        score := (BitVec.ofInt cfg.scoreW r.score).toInt
        target := r.target % 2 ^ cfg.addrW } := by
  simp only [Response.decode, Response.encode_err, Response.encode_faulted, Response.encode_faultCode, Response.encode_phase,
    Response.encode_taken, Response.encode_score, Response.encode_target, FaultCode.ofBits_bits, Phase.ofBit_bit,
    BitVec.toNat_ofNat]

/-! ### One answer for each request -/

/-- R50, R63: a command leaves the configuration and the host's stream alone. -/
theorem CommandEffect.keeps_stream {s t : State} {i : Instr} (h : CommandEffect s i t) :
    t.cfg = s.cfg ∧ t.pending.length = s.pending.length ∧ requestCount t.pending = requestCount s.pending := by
  cases h <;> exact ⟨rfl, rfl, rfl⟩

/-- R63, R151, R156: a step takes one event from the stream and appends one response if the event is a request, none if it is a
reset. -/
theorem step_takes_event {s : State} {ev : PortEvent s.cfg.reqW} {rest : List (PortEvent s.cfg.reqW)}
    (h : s.pending = ev :: rest) :
    ∃ t, step s = .next t ∧ t.cfg = s.cfg ∧ t.pending.length = rest.length ∧ requestCount t.pending = requestCount rest ∧
      ∃ new, t.responseWords = s.responseWords ++ new ∧ new.length = requestCount [ev] := by
  cases ev with
  | rst => exact ⟨_, step_of_rst h, rfl, rfl, rfl, [], (List.append_nil _).symm, rfl⟩
  | request w =>
    obtain ⟨t, ht, he⟩ := exec_effect (decode s.cfg w) { s with pending := rest }
    obtain ⟨hcfg, hlen, hcount⟩ := he.keeps_stream
    obtain ⟨r, hr, -⟩ := he.reports_status
    exact ⟨t, (step_of_request h).trans ht, hcfg, hlen, hcount, [_], hr, rfl⟩

theorem requestCount_cons {w : Nat} (ev : PortEvent w) (es : List (PortEvent w)) :
    requestCount (ev :: es) = requestCount [ev] + requestCount es := by
  cases ev <;> simp [requestCount, Nat.add_comm]

/-- R66, R159: a run of one step for each presented event empties the stream and answers every request. -/
theorem exists_run_answering_all {n : Nat} {s : State} (hn : s.pending.length = n) :
    ∃ t, runs n s t ∧ t.pending = [] ∧
      ∃ new, t.responseWords = s.responseWords ++ new ∧ new.length = requestCount s.pending := by
  induction n generalizing s with
  | zero =>
    have hnil : s.pending = [] := List.length_eq_zero_iff.1 hn
    exact ⟨s, runs_zero.2 rfl, hnil, [], (List.append_nil _).symm, by rw [hnil]; rfl⟩
  | succ n ih =>
    obtain ⟨ev, rest, hpend⟩ := List.exists_cons_of_length_eq_add_one hn
    obtain ⟨u, hstep, -, hlen, hcount, first, hfirst, hfirstLen⟩ := step_takes_event hpend
    have hrest : rest.length = n := by simpa [hpend] using hn
    obtain ⟨t, hrun, hdone, later, hlater, hlaterLen⟩ := ih (hlen.trans hrest)
    refine ⟨t, runs_succ.2 ⟨u, hstep, hrun⟩, hdone, first ++ later, ?_, ?_⟩
    · rw [hlater, hfirst, List.append_assoc]
    · rw [List.length_append, hfirstLen, hlaterLen, hcount, hpend, ← requestCount_cons]

/-! ### From lines to port events -/

/-- R69: a command whose operand fits is presented as its word. -/
theorem assembleInstr_of_wf {cfg : Config} {i : Instr} (h : i.wf cfg = true) :
    assembleInstr cfg i = some (.request (encode cfg i)) :=
  if_pos h

section Assembling

variable {cfg : Config}

/-- R73: a line that opens or closes no block adds what it presents by itself. -/
theorem assembleLines_line {l : AsmLine} (hrep : ∀ k, l ≠ .rep k) (hendr : l ≠ .endr) (ls : List AsmLine)
    (stack : List (Nat × List (PortEvent cfg.reqW))) (out : List (PortEvent cfg.reqW)) :
    assembleLines cfg (l :: ls) stack out = (assembleLine cfg l).bind fun es => assembleLines cfg ls stack (out ++ es) := by
  rw [assembleLines]
  · cases assembleLine cfg l <;> rfl
  · exact hrep
  · exact fun _ _ _ _ hl => hendr hl
  · exact fun _ hl => hendr hl

/-- R73: lines that assemble by themselves assemble to the same events inside any blocks `outer`, and close none of these. -/
theorem assembleLines_append {body : List AsmLine} {stack : List (Nat × List (PortEvent cfg.reqW))}
    {out es : List (PortEvent cfg.reqW)} (h : assembleLines cfg body stack out = some es) (tail : List AsmLine)
    (outer : List (Nat × List (PortEvent cfg.reqW))) :
    assembleLines cfg (body ++ tail) (stack ++ outer) out = assembleLines cfg tail outer es := by
  induction body generalizing stack out with
  | nil =>
    cases stack with
    | nil => cases h; rfl
    | cons => nomatch h
  | cons l ls ih =>
    by_cases hrep : ∃ k, l = .rep k
    · obtain ⟨k, rfl⟩ := hrep
      exact ih (stack := (k, out) :: stack) h
    by_cases hendr : l = .endr
    · subst hendr
      cases stack with
      | nil => nomatch h
      | cons => exact ih h
    rw [not_exists] at hrep
    rw [assembleLines_line hrep hendr] at h
    obtain ⟨events, hline, h⟩ := Option.bind_eq_some_iff.1 h
    rw [List.cons_append, assembleLines_line hrep hendr, hline]
    exact ih h

end Assembling

/-! ### Hexadecimal digits -/

theorem hexDigit_hexChar {d : Nat} (h : d < 16) : hexDigit (hexChar d) = some d := by
  revert d; decide

theorem hexDigit_lt {c : Char} {d : Nat} (h : hexDigit c = some d) : d < 16 := by
  unfold hexDigit decDigit at h
  split_ifs at h <;> cases h <;> omega

/-- R69: a string of digits has a value only if each character is a digit. -/
theorem digit_of_mem_digits {base : Nat} {digit : Char → Option Nat} {cs : List Char} {acc v : Nat}
    (h : digits base digit cs acc = some v) : ∀ c ∈ cs, ∃ d, digit c = some d := by
  induction cs generalizing acc with
  | nil => exact nofun
  | cons c cs ih =>
    unfold digits at h
    split at h
    · next d hd => exact List.forall_mem_cons.2 ⟨⟨d, hd⟩, ih h⟩
    · nomatch h

/-- Reading a digit moves the value one place up. -/
theorem digits_hexChar_cons {d : Nat} (h : d < 16) (cs : List Char) (acc : Nat) :
    digits 16 hexDigit (hexChar d :: cs) acc = digits 16 hexDigit cs (16 * acc + d) := by
  rw [digits, hexDigit_hexChar h]

/-- R74: with fuel for every digit of `n`, the digits put before `acc` have the value `n`. -/
theorem digits_hexDigitsAux {fuel n : Nat} (hn : n < 16 ^ fuel) (acc : List Char) :
    digits 16 hexDigit (hexDigitsAux fuel n acc) 0 = digits 16 hexDigit acc n := by
  induction fuel generalizing n acc with
  | zero =>
    obtain rfl : n = 0 := by simpa using hn
    rfl
  | succ fuel ih =>
    unfold hexDigitsAux
    split
    · next hlt => rw [digits_hexChar_cons hlt, Nat.mul_zero, Nat.zero_add]
    · have hdiv : n / 16 < 16 ^ fuel := by
        rw [Nat.pow_succ] at hn
        omega
      rw [ih hdiv, digits_hexChar_cons (Nat.mod_lt _ (by decide)), Nat.div_add_mod]

theorem hexDigitsAux_ne_nil {fuel n : Nat} {acc : List Char} (h : fuel ≠ 0 ∨ acc ≠ []) : hexDigitsAux fuel n acc ≠ [] := by
  induction fuel generalizing n acc with
  | zero => exact h.resolve_left fun h => h rfl
  | succ fuel ih =>
    unfold hexDigitsAux
    split
    · exact List.cons_ne_nil _ _
    · exact ih (.inr (List.cons_ne_nil _ _))

theorem hexDigits_ne_nil (n : Nat) : hexDigits n ≠ [] := hexDigitsAux_ne_nil (.inl (Nat.succ_ne_zero _))

/-- Four bits to a digit: the fuel of `hexDigits` is enough. -/
theorem lt_sixteen_pow_digitCount (n : Nat) : n < 16 ^ (Nat.log2 n / 4 + 1) := by
  calc n < 2 ^ (Nat.log2 n + 1) := Nat.lt_log2_self
    _ ≤ 2 ^ (4 * (Nat.log2 n / 4 + 1)) := Nat.pow_le_pow_right (by decide) (by omega)
    _ = 16 ^ (Nat.log2 n / 4 + 1) := Nat.pow_mul 2 4 _

/-- R74: the listed digits of a number have that number as their value. -/
theorem digits_hexDigits (n : Nat) : digits 16 hexDigit (hexDigits n) 0 = some n :=
  digits_hexDigitsAux (lt_sixteen_pow_digitCount n) []

/-- R69: a `0x` number is the value of the digits that follow `0x`. -/
theorem parseNumber_hex {ds : List Char} (h : ds ≠ []) : parseNumber ('0' :: 'x' :: ds) = digits 16 hexDigit ds 0 := by
  obtain ⟨c, cs, rfl⟩ := List.exists_cons_of_ne_nil h
  rfl

/-! ### The obligations -/

/-- Settles O1: the three fields of the encoding are those of the command. -/
theorem decodeOfEncodeIsTheCommand : Obligations.DecodeOfEncodeIsTheCommand := by
  unfold Obligations.DecodeOfEncodeIsTheCommand
  exact fun _ _ => decode_encode

/-- Settles O2: the decoder keeps every field, and the fields add up to the word. -/
theorem encodeOfDecodeIsTheWord : Obligations.EncodeOfDecodeIsTheWord := by
  unfold Obligations.EncodeOfDecodeIsTheWord
  exact fun cfg w => ⟨decode_wf cfg w, encode_decode cfg w⟩

/-- Settles O3: the fields of the word as arithmetic on it, and the command that has them. -/
theorem decodeReadsOpThenFAndA : Obligations.DecodeReadsOpThenFAndA := by
  unfold Obligations.DecodeReadsOpThenFAndA
  intro cfg w
  have hflag := requestF_eq cfg w
  have haddr := requestA_eq cfg w
  refine ⟨haddr ▸ requestA_lt cfg w, ?_, ?_, ?_, ?_⟩ <;>
    exact fun hop => decode_eq_of_fields (requestOp_eq_iff.2 hop) hflag haddr

/-- Settles O8: in range, the widths of the score and target fields lose nothing. -/
theorem responseFieldsReadBack : Obligations.ResponseFieldsReadBack := by
  unfold Obligations.ResponseFieldsReadBack
  intro cfg r htarget hlo hhi
  have hwidth : 1 ≤ cfg.scoreW := Nat.le_add_left 1 _
  rw [Response.decode_encode, ofInt_toInt hwidth hlo hhi, Nat.mod_eq_of_lt htarget]

/-- Settles O15: nothing presented changes nothing, and an event is taken with the number of responses it calls for. -/
theorem everyStepAnswers : Obligations.EveryStepAnswers := by
  unfold Obligations.EveryStepAnswers
  intro s
  rcases hpend : s.pending with _ | ⟨ev, rest⟩
  · exact ⟨s, step_of_idle hpend, rfl, fun _ => rfl, nofun, nofun⟩
  obtain ⟨t, hstep, hcfg, hlen, -, new, hnew, hnewLen⟩ := step_takes_event hpend
  refine ⟨t, hstep, hcfg, nofun, fun _ hev => ?_, fun _ _ hev => ?_⟩
  · cases hev
    rw [List.length_eq_zero_iff.1 hnewLen, List.append_nil] at hnew
    exact ⟨hlen, hnew⟩
  · cases hev
    obtain ⟨r, rfl⟩ := List.length_eq_one_iff.1 hnewLen
    exact ⟨hlen, r, hnew⟩

/-- Settles O16: by induction on the number of events presented, one step each. -/
theorem everyPresentedRequestIsAnswered : Obligations.EveryPresentedRequestIsAnswered := by
  unfold Obligations.EveryPresentedRequestIsAnswered
  exact fun _ => exists_run_answering_all rfl

/-- Settles O57: the enclosed lines assemble inside the block as they do alone, and `.endr` repeats what they present. -/
theorem repeatRepeatsTheEnclosedLines : Obligations.RepeatRepeatsTheEnclosedLines := by
  unfold Obligations.RepeatRepeatsTheEnclosedLines
  intro cfg k body es h
  exact assembleLines_append h [.endr] [(k, [])]

/-- Settles O58: the value of the listed digits is the word, so each of them is a digit. -/
theorem listedResponseReadsBack : Obligations.ListedResponseReadsBack := by
  unfold Obligations.ListedResponseReadsBack
  intro w r
  have hvalue := digits_hexDigits r.toNat
  have hne := hexDigits_ne_nil r.toNat
  refine ⟨hexDigits r.toNat, rfl, hne, fun c hc => ?_, hvalue, (parseNumber_hex hne).trans hvalue⟩
  obtain ⟨d, hd⟩ := digit_of_mem_digits hvalue c hc
  exact ⟨d, hd, hexDigit_lt hd⟩

/-- Settles O4: the field sum of `encode_toNat_of_wf`, with the opcode of each command. -/
theorem requestWordIsTheFieldSum : Obligations.RequestWordIsTheFieldSum := by
  unfold Obligations.RequestWordIsTheFieldSum
  intro cfg f a ha
  have sum (i : Instr) (hi : i.addr = a) := encode_toNat_of_wf (cfg := cfg) (i := i) (Instr.wf_iff.2 (hi ▸ ha))
  exact ⟨rfl, sum (.predict f a) rfl, sum (.update f a) rfl, sum (.reservedOp00 f a) rfl, sum (.reservedOp11 f a) rfl⟩

/-- Settles O5: eight fixed words, each decoded by evaluation. -/
theorem listedRequestWordsDecode : Obligations.ListedRequestWordsDecode := by
  unfold Obligations.ListedRequestWordsDecode
  decide

/-- Settles O56: each command a line stands for has an operand of ADDR_W bits, so it is presented as its word. -/
theorem linesAssembleToTheirCommands : Obligations.LinesAssembleToTheirCommands := by
  unfold Obligations.LinesAssembleToTheirCommands
  intro cfg a f ha
  have hpredict (c : Bool) := assembleInstr_of_wf (cfg := cfg) (i := .predict c a) (Instr.wf_iff.2 ha)
  have hupdate := assembleInstr_of_wf (cfg := cfg) (i := .update f a) (Instr.wf_iff.2 ha)
  have hupdateZero (t : Bool) := assembleInstr_of_wf (cfg := cfg) (i := .update t 0) (Instr.wf_iff.2 (Nat.two_pow_pos _))
  simp [assembleLine, hpredict, hupdate, hupdateZero]

end Machine

end Sys2Proof
end

section
/-! PROOFS. The history buffer (40_history_buffer.md): what a run of pushes leaves at each age, what `popFront` leaves, and the ring
form read by age. -/

namespace Sys2Proof.Machine

variable {w h : Nat}

/-! ### The entry-per-age form -/

/-- R28, R29: a buffer is its occupancy and its entries. -/
theorem Chb.eq_of_occupancy_of_entry {b b' : Chb w h} (hocc : b.occupancy = b'.occupancy)
    (hentry : ∀ k, (hk : k < h) → b.e[k] = b'.e[k]) : b = b' := by
  obtain ⟨e, size⟩ := b
  obtain ⟨e', size'⟩ := b'
  obtain rfl : size = size' := Fin.ext hocc
  obtain rfl : e = e' := Vector.ext hentry
  rfl

/-- R79: the sentinel at every age the capacity does not reach. -/
theorem Chb.atAge_of_capacity_le (b : Chb w h) {i : Nat} (hi : h ≤ i) : b.atAge i = 0 :=
  b.atAge_ge (b.occupancy_le.trans hi)

/-- R79: the sentinel at every age of a buffer that remembers nothing. -/
theorem Chb.atAge_of_occupancy_eq_zero {b : Chb w h} (hb : b.occupancy = 0) (i : Nat) : b.atAge i = 0 :=
  b.atAge_ge (hb.trans_le (Nat.zero_le i))

/-- R76, R79: the address at each age after one push, as `Chb.push_entry` says it of the entries. -/
theorem Chb.push_atAge (b : Chb w h) (a : BitVec w) {i : Nat} (hi : i < h) :
    (b.push a).atAge i = if i = 0 then a else b.atAge (i - 1) := by
  cases i with
  | zero => exact b.push_atAge_zero a hi
  | succ i => exact (b.push_atAge_succ a i).trans (if_pos hi)

/-- R76, R78: every push adds one address, up to the capacity. -/
theorem Chb.foldl_push_occupancy (b : Chb w h) (as : List (BitVec w)) :
    (as.foldl Chb.push b).occupancy = min (b.occupancy + as.length) h := by
  induction as generalizing b with
  | nil => exact (Nat.min_eq_left b.occupancy_le).symm
  | cons a as ih =>
    rw [List.foldl_cons, ih, Chb.push_occupancy, List.length_cons]
    omega

/-- R76, R79: below the capacity, the pushed addresses with the newest first, and behind them what the buffer held before. -/
theorem Chb.foldl_push_atAge (b : Chb w h) (as : List (BitVec w)) {i : Nat} (hi : i < h) :
    (as.foldl Chb.push b).atAge i = as.reverse[i]?.getD (b.atAge (i - as.length)) := by
  induction as using List.reverseRecOn generalizing i with
  | nil => rfl
  | append_singleton as a ih =>
    rw [List.foldl_append, List.foldl_cons, List.foldl_nil, Chb.push_atAge _ _ hi]
    cases i with
    | zero => simp
    | succ i => simp [ih (Nat.lt_of_succ_lt hi)]

/-! ### `popFront` -/

/-- R81: nothing to remove. -/
theorem Chb.popFront_of_occupancy_eq_zero {b : Chb w h} (hb : b.occupancy = 0) : b.popFront = (0, b) := if_pos hb

/-- R80, R81: the oldest address, which for an empty buffer is the sentinel. -/
theorem Chb.popFront_fst (b : Chb w h) : b.popFront.1 = b.atAge (b.occupancy - 1) := by
  unfold Chb.popFront
  split
  · next hb => exact (Chb.atAge_of_occupancy_eq_zero hb _).symm
  · rfl

/-- R80, R81: one address fewer. -/
@[simp] theorem Chb.popFront_occupancy (b : Chb w h) : b.popFront.2.occupancy = b.occupancy - 1 := by
  unfold Chb.popFront
  split
  · next hb => simp [Chb.occupancy, hb]
  · rfl

/-- R80: the oldest entry is cleared, the others stay. -/
theorem Chb.popFront_entry {b : Chb w h} (hb : 0 < b.occupancy) {k : Nat} (hk : k < h) :
    b.popFront.2.e[k] = if k = b.occupancy - 1 then 0 else b.e[k] := by
  have hne : b.size.val ≠ 0 := hb.ne'
  simp only [Chb.popFront, if_neg hne, Vector.getElem_ofFn]
  rfl

/-! ### The ring form -/

/-- R83: an age the ring holds reads its slot. -/
theorem RingChb.atAge_lt (r : RingChb w h) {i : Nat} (hi : i < r.size.val) : r.atAge i = r.slot i := if_pos hi

/-- R83: the sentinel at every age the ring does not hold. -/
theorem RingChb.atAge_ge (r : RingChb w h) {i : Nat} (hi : r.size.val ≤ i) : r.atAge i = 0 := if_neg (Nat.not_lt.2 hi)

@[simp] theorem RingChb.push_size (r : RingChb w h) (a : BitVec w) : (r.push a).size.val = min (r.size.val + 1) h := rfl

@[simp] theorem RingChb.toChb_occupancy (r : RingChb w h) : r.toChb.occupancy = r.size.val := rfl

/-- R83: the entry the abstraction gives each age. -/
theorem RingChb.toChb_entry (r : RingChb w h) {k : Nat} (hk : k < h) : r.toChb.e[k] = r.atAge k := by
  simp [RingChb.toChb]

/-- R83: the abstraction is read at an age as the ring is. -/
theorem RingChb.toChb_atAge (r : RingChb w h) (i : Nat) : r.toChb.atAge i = r.atAge i := by
  by_cases hi : i < r.size.val
  · rw [Chb.atAge_lt r.toChb hi, RingChb.toChb_entry]
  · rw [Chb.atAge_ge r.toChb (Nat.not_lt.1 hi), RingChb.atAge_ge r (Nat.not_lt.1 hi)]

/-- R30, R83: the abstraction holds 0 beyond the occupancy. -/
theorem RingChb.toChb_tailZero (r : RingChb w h) : r.toChb.tailZero := fun k hk =>
  (r.toChb_entry k.isLt).trans (r.atAge_ge hk)

/-- R83: two ages below the capacity have two places in the ring. -/
theorem RingChb.age_eq_of_slotIndex_eq (r : RingChb w h) {i j : Nat} (hi : i < h) (hj : j < h)
    (heq : (r.wp.val + i) % h = (r.wp.val + j) % h) : i = j :=
  Nat.ModEq.eq_of_lt_of_lt (Nat.ModEq.add_left_cancel' r.wp.val heq) hi hj

/-- R83: the write pointer steps back, so the slot at age `k` after a push is the slot that was at age `k - 1`. -/
theorem RingChb.push_slot (r : RingChb w h) (a : BitVec w) {k : Nat} (hk : k < h) :
    (r.push a).slot k = if k = 0 then a else r.slot (k - 1) := by
  rcases Nat.eq_zero_or_pos k with rfl | hpos
  · simp [RingChb.slot, RingChb.push]
  · have hback : (r.wp.val + h - 1 + k) % h = (r.wp.val + (k - 1)) % h := by
      rw [show r.wp.val + h - 1 + k = r.wp.val + (k - 1) + h by omega, Nat.add_mod_right]
    have hother : (r.wp.val + h - 1) % h ≠ (r.wp.val + (k - 1)) % h := by
      rw [Nat.add_sub_assoc (by omega)]
      exact fun heq => by have := r.age_eq_of_slotIndex_eq (by omega) (by omega) heq; omega
    simp [RingChb.slot, RingChb.push, hback, hother, hpos.ne']

/-- R83: what `Chb.push_entry` says of the entry-per-age form. -/
theorem RingChb.push_atAge (r : RingChb w h) (a : BitVec w) {k : Nat} (hk : k < h) :
    (r.push a).atAge k = if k = 0 then a else r.atAge (k - 1) := by
  cases k with
  | zero => simp [RingChb.atAge, RingChb.push_slot r a hk, hk]
  | succ k =>
    have hheld : k + 1 < min (r.size.val + 1) h ↔ k < r.size.val := by omega
    simp [RingChb.atAge, RingChb.push_slot r a hk, hheld]

/-- R76, R83: a push of the ring is a push of the buffer it stands for. -/
theorem RingChb.toChb_push (r : RingChb w h) (a : BitVec w) : (r.push a).toChb = r.toChb.push a :=
  Chb.eq_of_occupancy_of_entry rfl fun k hk => by
    simp only [RingChb.toChb_entry, RingChb.push_atAge r a hk, Chb.push_entry r.toChb a hk]

/-- R81, R83: nothing to remove. -/
theorem RingChb.popFront_of_size_eq_zero {r : RingChb w h} (hr : r.size.val = 0) : r.popFront = (0, r) := if_pos hr

/-- R80, R83: the oldest slot is returned, and its age is no longer held. -/
theorem RingChb.popFront_of_size_pos {r : RingChb w h} (hr : 0 < r.size.val) :
    r.popFront.1 = r.atAge (r.size.val - 1) ∧ r.popFront.2.size.val = r.size.val - 1 ∧
      ∀ k, r.popFront.2.atAge k = if k = r.size.val - 1 then 0 else r.atAge k := by
  have hpop : r.popFront = (r.slot (r.size.val - 1), { r with size := ⟨r.size.val - 1, by omega⟩ }) := if_neg hr.ne'
  rw [hpop]
  refine ⟨(r.atAge_lt (by omega)).symm, rfl, fun k => ?_⟩
  split
  · next hk => exact RingChb.atAge_ge _ hk.ge
  · next hk =>
    have hheld : k < r.size.val - 1 ↔ k < r.size.val := by omega
    exact if_congr hheld rfl rfl

/-- R80, R81, R83: `popFront` of the ring is `popFront` of the buffer it stands for. -/
theorem RingChb.toChb_popFront (r : RingChb w h) : r.toChb.popFront = (r.popFront.1, r.popFront.2.toChb) := by
  rcases Nat.eq_zero_or_pos r.size.val with hr | hr
  · rw [Chb.popFront_of_occupancy_eq_zero (b := r.toChb) hr, RingChb.popFront_of_size_eq_zero hr]
  · obtain ⟨hfst, hsize, hage⟩ := RingChb.popFront_of_size_pos hr
    refine Prod.ext ?_ (Chb.eq_of_occupancy_of_entry (r.toChb.popFront_occupancy.trans hsize.symm) fun k hk => ?_)
    · rw [Chb.popFront_fst, RingChb.toChb_atAge, RingChb.toChb_occupancy, hfst]
    · rw [Chb.popFront_entry (b := r.toChb) hr hk, RingChb.toChb_entry, RingChb.toChb_entry, RingChb.toChb_occupancy, hage]

/-! ### The obligations of the family -/

/-- Settles O44: the newest address is the last of the list, by induction from its end. -/
theorem historyBufferIsAFifo : Obligations.HistoryBufferIsAFifo := by
  unfold Obligations.HistoryBufferIsAFifo
  intro w h as i
  refine ⟨?_, ?_⟩
  · split
    · next hi => rw [Chb.foldl_push_atAge _ as hi, Chb.atAge_of_occupancy_eq_zero rfl]
    · next hi => exact Chb.atAge_of_capacity_le _ (Nat.not_lt.1 hi)
  · rw [Chb.foldl_push_occupancy]
    exact congrArg (min · h) (Nat.zero_add _)

/-- Settles O47: each primitive of the ring, read by age through the abstraction. -/
theorem ringFormRefinesTheBuffer : Obligations.RingFormRefinesTheBuffer := by
  unfold Obligations.RingFormRefinesTheBuffer
  intro w h r a i
  have hpop := r.toChb_popFront
  exact ⟨r.toChb_push a, (r.toChb_atAge i).symm, (congrArg Prod.fst hpop).symm, (congrArg Prod.snd hpop).symm, rfl,
    r.toChb_tailZero⟩

/-- Settles O45: the entries after a push, and the zeros beyond the occupancy that it keeps. -/
theorem pushShiftsTheEntries : Obligations.PushShiftsTheEntries := by
  unfold Obligations.PushShiftsTheEntries
  exact fun _ _ b a => ⟨fun k => b.push_entry a k.isLt, b.push_occupancy a, b.push_tailEntry a⟩

/-- Settles O46: both branches of `popFront`, the empty buffer and the oldest entry. -/
theorem popFrontRemovesTheOldest : Obligations.PopFrontRemovesTheOldest := by
  unfold Obligations.PopFrontRemovesTheOldest
  exact fun _ _ b => ⟨Chb.popFront_of_occupancy_eq_zero,
    fun hb => ⟨b.popFront_fst, b.popFront_occupancy, fun k => Chb.popFront_entry hb k.isLt⟩⟩

end Sys2Proof.Machine
end

section
/-! PROOFS. The history register (41_history_register.md): one push as arithmetic, a bit as arithmetic, and what a run of pushes leaves
at each bit. -/

namespace Sys2Proof.Machine

variable {h : Nat}

/-- R85: the shift leaves bit 0 free for the outcome, so OR is addition, and masking is the remainder by `2^H`. -/
theorem ghrPush_toNat (g : BitVec h) (o : Bool) : (ghrPush g o).toNat = (2 * g.toNat + o.toNat) % 2 ^ h := by
  have hor : g.toNat <<< 1 ||| o.toNat = 2 * g.toNat + o.toNat := by
    rw [← Nat.shiftLeft_add_eq_or_of_lt o.toNat_lt, Nat.shiftLeft_eq, Nat.mul_comm, Nat.pow_one]
  rw [ghrPush, mask, hor, Nat.and_two_pow_sub_one_eq_mod, BitVec.toNat_ofNat, Nat.mod_mod]

/-- R86: a bit of the register as arithmetic on its value. -/
theorem ghrBitAt_eq_decide (g : BitVec h) (i : Nat) : ghrBitAt g i = decide (g.toNat / 2 ^ i % 2 = 1) :=
  Nat.testBit_eq_decide_div_mod_eq

/-- R87: the register has no bit beyond its width. -/
theorem ghrBitAt_of_width_le (g : BitVec h) {i : Nat} (hi : h ≤ i) : ghrBitAt g i = false :=
  BitVec.getLsbD_of_ge g i hi

/-- R85, R86: after a run of pushes, the outcomes pushed stand newest first, and the bits from before are as much older as there were
pushes. -/
theorem foldl_ghrPush_bit (g : BitVec h) (os : List Bool) {i : Nat} (hi : i < h) :
    ghrBitAt (os.foldl ghrPush g) i = os.reverse[i]?.getD (ghrBitAt g (i - os.length)) := by
  induction os using List.reverseRecOn generalizing i with
  | nil => rfl
  | append_singleton os o ih =>
    rw [List.foldl_append, List.foldl_cons, List.foldl_nil, ghrPush_bit, if_pos hi]
    cases i with
    | zero => simp
    | succ i => simp [ih (Nat.lt_of_succ_lt hi)]

/-- Settles O48: the newest outcome is the last of the list, by induction from its end, and the register it starts from is 0. -/
theorem historyRegisterIsAShiftRegister : Obligations.HistoryRegisterIsAShiftRegister := by
  unfold Obligations.HistoryRegisterIsAShiftRegister
  intro h g o os i
  refine ⟨ghrPush_toNat g o, ?_, ?_⟩
  · split
    · exact ghrBitAt_eq_decide g i
    · next hi => exact ghrBitAt_of_width_le g (Nat.not_lt.1 hi)
  · split
    · next hi => rw [foldl_ghrPush_bit _ os hi, show ghrBitAt (0#h) (i - os.length) = false from BitVec.getLsbD_zero]
    · next hi => exact ghrBitAt_of_width_le _ (Nat.not_lt.1 hi)

end Sys2Proof.Machine
end

section
/-! PROOFS. The weight table (42_weight_table.md): one training step of one cell, the cells one command visits, the order in which
they are trained, and the closed gate. -/

namespace Sys2Proof.Machine

/-! ### One cell -/

/-- R94: whatever the cell held, one training step does not leave the pattern of -128 in it. -/
theorem Memory.read_cellTrain_ne_minInt {cfg : Config} {m : Memory} (h : m.wf) (x : Cell) (up : Bool) :
    (m.cellTrain cfg x up).read (x.address cfg) ≠ 0x80#8 := by
  intro hread
  have hrange : -127 ≤ (m.cellTrain cfg x up).weight cfg x :=
    (Memory.weight_cellTrain_same h x up).symm ▸ (trainStep_range (m.read (x.address cfg)) up).1
  rw [Memory.weight, hread] at hrange
  exact absurd hrange (by decide)

/-! ### The visited cells -/

/-- R92, R102: the bias has lane 0 and history position `i` has lane `i + 1`. -/
theorem State.accessCells_lane (s : State) (c : Nat) :
    (s.accessCells c).map Cell.lane = List.range (s.chb.occupancy + 1) := by
  simp [State.accessCells, State.positions, State.historyCell, biasCell, List.range_succ_eq_map, Function.comp_def]

/-- R90, R102: one command visits one context. -/
theorem State.accessCells_ctx {s : State} {c : Nat} {x : Cell} (hx : x ∈ s.accessCells c) : x.ctx = c := by
  rcases List.mem_cons.1 hx with rfl | hx
  · rfl
  · obtain ⟨i, -, rfl⟩ := List.mem_map.1 hx
    rfl

/-- R103: distinct cells take their steps to the same table in any order: each reads as its one step leaves it, and every other
address as before. -/
theorem Memory.trainAll_perm {cfg : Config} {m : Memory} (h : m.wf) {ts us : List (Cell × Bool)} (hp : ts.Perm us)
    (hv : ∀ t ∈ us, t.1.valid cfg) (hn : (us.map Prod.fst).Nodup) : m.trainAll cfg ts = m.trainAll cfg us := by
  refine Memory.eq_of_read (Memory.trainAll_wf h ts) (Memory.trainAll_wf h us) fun a => ?_
  by_cases ha : ∃ t ∈ us, t.1.address cfg = a
  · obtain ⟨⟨x, up⟩, hx, rfl⟩ := ha
    have hvts : ∀ t ∈ ts, t.1.valid cfg := fun t ht => hv t (hp.mem_iff.1 ht)
    have hnts : (ts.map Prod.fst).Nodup := (hp.map Prod.fst).nodup_iff.2 hn
    have hweight : (m.trainAll cfg ts).weight cfg x = (m.trainAll cfg us).weight cfg x := by
      rw [Memory.weight_trainAll h hvts hnts (hp.mem_iff.2 hx), Memory.weight_trainAll h hv hn hx]
    exact BitVec.eq_of_toInt_eq hweight
  · have hother : ∀ t ∈ us, t.1.address cfg ≠ a := fun t ht haddr => ha ⟨t, ht, haddr⟩
    rw [Memory.read_trainAll_other m fun t ht => hother t (hp.mem_iff.1 ht), Memory.read_trainAll_other m hother]

/-! ### The closed gate -/

/-- R97, R98, R100: where the prediction was right and not of low confidence, the training gives the table before it. -/
theorem State.trained_of_confident_of_correct {s : State} {taken : Bool}
    (hconf : ¬ 100 * |s.tokScore.toInt| < 214 * ((s.cfg.H : Int) + 1) + 2058) (hcorrect : s.tokTaken = taken) :
    s.trained taken = s.wt := by
  refine State.trained_closed (Bool.eq_false_iff.2 fun hgate => ?_)
  rcases (s.trains_iff taken).1 hgate with hlow | hwrong
  · exact hconf hlow
  · exact hwrong hcorrect

/-! ### The obligations -/

/-- Settles O28: an UPDATE keeps the table, or gives it the trained value, which behind a closed gate is the table before. -/
theorem closedGateKeepsEveryWeight : Obligations.ClosedGateKeepsEveryWeight := by
  unfold Obligations.ClosedGateKeepsEveryWeight
  intro s t taken target ht hconf hcorrect k
  rcases (exec_effect_of_next ht).wt_eq_or_trained with hwt | ⟨-, -, -, taken', target', hi, hwt⟩
  · rw [hwt]
  · cases hi
    rw [hwt, State.trained_of_confident_of_correct hconf hcorrect]

/-- Settles O51: the targets of an UPDATE are the visited cells, which exist and are distinct, so `Memory.trainAll_perm` applies. -/
theorem visitedCellsAreDistinct : Obligations.VisitedCellsAreDistinct := by
  unfold Obligations.VisitedCellsAreDistinct
  intro s c hc
  refine ⟨s.accessCells_lane c, fun x hx => ⟨s.accessCells_valid hc x hx, State.accessCells_ctx hx⟩, fun taken ts hwf hp => ?_⟩
  exact Memory.trainAll_perm hwf hp (s.trainTargets_valid taken) (s.trainTargets_nodup taken)

/-- Settles O26: the executed path of UPDATE, the frame of the training, and the closed gate. -/
theorem conditionalUpdateResult : Obligations.ConditionalUpdateResult := by
  unfold Obligations.ConditionalUpdateResult
  intro s taken target _ hf hp hc
  refine ⟨?_, fun k hk => s.read_trained_other taken hk, State.trained_of_confident_of_correct⟩
  rw [exec_update_conditional taken target hf hp hc]
  simp [State.updateConditional, State.respond, hf]

/-- Settles O49: the cell takes `trainStep`, whose range leaves out -128, and a write keeps the other cells and the canonical form. -/
theorem cellTrainSaturates : Obligations.CellTrainSaturates := by
  unfold Obligations.CellTrainSaturates
  intro cfg m x up h
  exact ⟨Memory.weight_cellTrain_same h x up, Memory.read_cellTrain_ne_minInt h x up,
    fun _ hk => Memory.read_cellTrain_other m up hk.symm, Memory.cellTrain_wf h x up⟩

end Sys2Proof.Machine
end

section
/-! PROOFS. The predictor commands (43_predictor_commands.md): the score as a sum, what PREDICT and UPDATE leave on each path, the
branches the block remembers, and fault freedom as alternation. -/

namespace Sys2Proof.Machine

/-! ### The score -/

/-- R105: the positions below the occupancy, summed as a finite set. -/
theorem State.score_eq_sum_range (s : State) (c : Nat) :
    s.score c = s.wt.weight s.cfg (biasCell c) + ∑ i ∈ Finset.range s.chb.occupancy, s.term c i := by
  rw [State.score, State.positions, ← List.sum_toFinset _ List.nodup_range, List.toFinset_range]

/-- R108: adding or subtracting the weight is adding the signed term. -/
theorem State.add_or_sub_eq_add_term (s : State) (c i : Nat) (acc : Int) :
    (if ghrBitAt s.ghr i then acc + s.wt.weight s.cfg (s.historyCell c i)
     else acc - s.wt.weight s.cfg (s.historyCell c i)) = acc + s.term c i := by
  unfold State.term signOf
  cases ghrBitAt s.ghr i <;> simp [Int.sub_eq_add_neg]

theorem foldl_add_eq_add_sum (f : Nat → Int) (acc : Int) (l : List Nat) :
    l.foldl (fun acc i => acc + f i) acc = acc + (l.map f).sum := by
  induction l generalizing acc with
  | nil => simp
  | cons i l ih => rw [List.foldl_cons, ih, List.map_cons, List.sum_cons, Int.add_assoc]

/-- R108: the source's loop accumulates the sum of R105. -/
theorem State.scoreLoop_eq_score (s : State) (c : Nat) : s.scoreLoop c = s.score c := by
  unfold State.scoreLoop
  simp only [State.add_or_sub_eq_add_term]
  exact foldl_add_eq_add_sum (s.term c) _ s.positions

/-! ### PREDICT -/

/-- R10: an operand that fits its field is the operand. -/
theorem State.addressOperand_toNat {s : State} {a : Nat} (ha : a < 2 ^ s.cfg.addrW) : (s.addressOperand a).toNat = a :=
  (BitVec.toNat_ofNat ..).trans (Nat.mod_eq_of_lt ha)

/-- R110, R113: both kinds of PREDICT capture the inputs with some prediction and respond with that prediction. -/
theorem exec_predict_captures {s : State} (c : Bool) (a : Nat) (hf : s.faulted = false) (hp : s.phase = .awaitingPredict) :
    ∃ taken score,
      exec (.predict c a) s = .next ((s.capture c (s.addressOperand a) taken score).respond false taken score) := by
  cases c with
  | true => exact ⟨_, _, exec_predict_conditional a hf hp⟩
  | false => exact ⟨_, _, exec_predict_unconditional a hf hp⟩

/-- R16, R25: the SCORE field of a response holds a score and its SCORE_W-bit register form as the same bits. -/
theorem Response.encode_score_toInt (cfg : Config) (r : Response) :
    Response.encode cfg { r with score := (BitVec.ofInt cfg.scoreW r.score).toInt } = r.encode cfg := by
  simp only [Response.encode, BitVec.ofInt_toInt]
  rfl

/-! ### UPDATE -/

/-- R59, R60: the words of UPDATE. -/
theorem decode_update {cfg : Config} {w : BitVec cfg.reqW} (hop : w.toNat % 4 = 2) :
    decode cfg w = .update (requestF cfg w) (requestA cfg w) :=
  decode_eq_of_fields (i := .update _ _) (requestOp_eq_iff.2 hop) rfl rfl

/-- R123: no path of UPDATE reads its target. -/
theorem exec_update_target (taken : Bool) (a a' : Nat) (s : State) : exec (.update taken a) s = exec (.update taken a') s := rfl

/-- R116, R124: an executed UPDATE consumes the token and leaves the fault record. -/
theorem exec_update_consumes {s : State} (taken : Bool) (a : Nat) (hf : s.faulted = false) (hp : s.phase = .awaitingUpdate) :
    ∃ t, exec (.update taken a) s = .next t ∧ t.statusView = (.awaitingPredict, s.faulted, s.faultCode) := by
  cases hc : s.capCond with
  | true => exact ⟨_, exec_update_conditional taken a hf hp hc, rfl⟩
  | false => exact ⟨_, exec_update_unconditional taken a hf hp hc, rfl⟩

/-- R100, R119, R120: through an open gate, each cell UPDATE trains takes one step in its direction. -/
theorem State.weight_trained {s : State} {taken : Bool} (hwf : s.wt.wf) (hgate : s.trains taken = true) {x : Cell} {up : Bool}
    (hx : (x, up) ∈ s.trainTargets taken) : (s.trained taken).weight s.cfg x = trainStep (s.wt.weight s.cfg x) up := by
  rw [State.trained, if_pos hgate]
  exact Memory.weight_trainAll hwf (s.trainTargets_valid taken) (s.trainTargets_nodup taken) hx

theorem State.bias_mem_trainTargets (s : State) (taken : Bool) :
    (biasCell (contextOf s.cfg s.capAddr.toNat), taken) ∈ s.trainTargets taken := List.mem_cons_self

theorem State.historyCell_mem_trainTargets (s : State) (taken : Bool) {i : Nat} (hi : i < s.chb.occupancy) :
    (s.historyCell (contextOf s.cfg s.capAddr.toNat) i, ghrBitAt s.ghr i == taken) ∈ s.trainTargets taken :=
  List.mem_cons_of_mem _ (List.mem_map.2 ⟨i, (s.mem_positions i).2 hi, rfl⟩)

/-! ### The remembered branches -/

/-- R88: the history of a block is one branch for each position below the occupancy. -/
theorem State.history_length (s : State) : s.history.length = s.chb.occupancy := by
  simp [State.history, State.positions]

theorem State.history_getElem (s : State) {i : Nat} (hi : i < s.history.length) :
    s.history[i] = ((s.chb.atAge i).toNat, ghrBitAt s.ghr i) := by
  simp [State.history, State.positions]

/-- R76, R85, R88: the two pushes of one UPDATE put the branch in front of the remembered ones and drop what exceeds the
capacity. -/
theorem State.updateConditional_history (s : State) (taken : Bool) :
    (s.updateConditional taken).history = ((s.capAddr.toNat, taken) :: s.history).take s.cfg.H := by
  refine List.ext_getElem ?_ fun i _ hi => ?_
  · simp [State.history_length, Nat.min_comm]
  · have hcap : i < s.cfg.H := hi.trans_le (List.length_take_le ..)
    rw [State.history_getElem, List.getElem_take]
    cases i with
    | zero => exact Prod.ext (congrArg BitVec.toNat (s.chb.push_atAge_zero s.capAddr hcap)) (ghrPush_bit_zero s.ghr taken hcap)
    | succ i =>
      have haddr : (s.chb.push s.capAddr).atAge (i + 1) = s.chb.atAge i := (s.chb.push_atAge_succ s.capAddr i).trans (if_pos hcap)
      have hbit : ghrBitAt (ghrPush s.ghr taken) (i + 1) = ghrBitAt s.ghr i := (ghrPush_bit_succ s.ghr taken i).trans (if_pos hcap)
      rw [List.getElem_cons_succ, State.history_getElem]
      exact Prod.ext (congrArg BitVec.toNat haddr) hbit

/-! ### The protocol -/

/-- R50, R66: a step on the word of a command that fits its fields is that command. -/
theorem step_of_command {s : State} {i : Instr} {rest : List (PortEvent s.cfg.reqW)} (hi : i.wf s.cfg = true)
    (hpend : s.pending = .request (encode s.cfg i) :: rest) : step s = exec i { s with pending := rest } := by
  rw [step_of_request hpend, decode_encode hi]

/-- R128: the phase after a command that the phase before it allows; none where the command faults. -/
def Phase.after : Phase → Instr → Option Phase
  | .awaitingPredict, .predict _ _ => some .awaitingUpdate
  | .awaitingUpdate, .update _ _ => some .awaitingPredict
  | _, _ => none

/-- R128, R132: an unfaulted block follows `Phase.after`: where it names no phase the block faults. -/
theorem CommandEffect.phase_after {s t : State} {i : Instr} (h : CommandEffect s i t) (hf : s.faulted = false) :
    s.phase.after i = if t.faulted then none else some t.phase := by
  cases h with
  | refused _ h => exact absurd (hf.symm.trans h) nofun
  | pendingPredict _ _ _ hp | strayUpdate _ _ _ hp => rw [hp]; rfl
  | conditionalPredict _ _ hp | unconditionalPredict _ _ hp | conditionalUpdate _ _ _ hp | unconditionalUpdate _ _ _ hp =>
    simp [hp, hf, Phase.after]
  | reserved00 | reserved11 => simp [Phase.after]

/-- R128: a stream alternates when the phase allows its first command and the rest alternates from the phase after it. -/
theorem alternates_request {cfg : Config} (p : Phase) (w : BitVec cfg.reqW) (es : List (PortEvent cfg.reqW)) :
    alternates cfg p (.request w :: es) = (p.after (decode cfg w)).any (alternates cfg · es) := by
  cases hi : decode cfg w <;> cases p <;> simp [alternates, Phase.after, hi]

/-- R37, R66: a command leaves what the host has still to present, which therefore alternates or not as before. -/
theorem CommandEffect.keeps_alternation {s t : State} {i : Instr} (h : CommandEffect s i t) (p : Phase) :
    alternates t.cfg p t.pending = alternates s.cfg p s.pending := by
  cases h <;> rfl

/-- R139: every run from the state is successful. -/
def State.neverFaults (s : State) : Prop := ∀ (n : Nat) (t : State), runs n s t → t.ok

theorem State.neverFaults.ok {s : State} (h : s.neverFaults) : s.ok := h 0 s (runs_zero.2 rfl)

/-- A run from the state is empty or goes on from the state its step answers. -/
theorem State.neverFaults_iff_of_step {s u : State} (h : step s = .next u) : s.neverFaults ↔ s.ok ∧ u.neverFaults := by
  constructor
  · exact fun hs => ⟨hs.ok, fun n t ht => hs (n + 1) t (runs_succ.2 ⟨u, h, ht⟩)⟩
  · rintro ⟨hok, hu⟩ (_ | n) t ht
    · rwa [← runs_zero.1 ht]
    · obtain ⟨v, hv, ht⟩ := runs_succ.1 ht
      rw [h] at hv
      cases hv
      exact hu n t ht

/-- R145: a block that is presented nothing stays as it is. -/
theorem State.neverFaults_of_idle {s : State} (hpend : s.pending = []) (hok : s.ok) : s.neverFaults := by
  intro n
  induction n with
  | zero => exact fun t ht => runs_zero.1 ht ▸ hok
  | succ n ih =>
    intro t ht
    obtain ⟨u, hu, ht⟩ := runs_succ.1 ht
    rw [step_of_idle hpend] at hu
    cases hu
    exact ih t ht

/-- R128, R129, R155: the first event of an alternating stream raises no fault and leaves a block whose stream alternates; the first
event of another stream raises one, or leaves a block whose stream does not alternate. -/
theorem alternates_iff_neverFaults {n : Nat} {s : State} (hn : s.pending.length = n) (hok : s.ok) :
    alternates s.cfg s.phase s.pending = true ↔ s.neverFaults := by
  induction n generalizing s with
  | zero =>
    have hnil : s.pending = [] := List.length_eq_zero_iff.1 hn
    rw [hnil, alternates]
    exact iff_of_true rfl (State.neverFaults_of_idle hnil hok)
  | succ n ih =>
    obtain ⟨ev, rest, hpend⟩ := List.exists_cons_of_length_eq_add_one hn
    have hrest : rest.length = n := by rw [hpend] at hn; exact Nat.succ.inj hn
    rw [hpend]
    cases ev with
    | rst =>
      rw [State.neverFaults_iff_of_step (step_of_rst hpend), alternates]
      exact (ih (s := State.applyReset { s with pending := rest }) hrest rfl).trans (and_iff_right hok).symm
    | request w =>
      obtain ⟨t, ht, he⟩ := exec_effect (decode s.cfg w) { s with pending := rest }
      obtain ⟨-, hlen, -⟩ := he.keeps_stream
      have hafter : s.phase.after (decode s.cfg w) = if t.faulted then none else some t.phase := he.phase_after hok
      have hkeep (p : Phase) : alternates t.cfg p t.pending = alternates s.cfg p rest := he.keeps_alternation p
      rw [State.neverFaults_iff_of_step ((step_of_request hpend).trans ht), and_iff_right hok, alternates_request, hafter]
      cases hfault : t.faulted with
      | true =>
        have hfails : ¬ t.neverFaults := fun h => absurd (hfault.symm.trans h.ok) nofun
        exact iff_of_false nofun hfails
      | false =>
        change alternates s.cfg t.phase rest = true ↔ t.neverFaults
        rw [← hkeep]
        exact ih (hlen.trans hrest) hfault

/-! ### The obligations -/

/-- Settles O20: either kind of PREDICT responds with the prediction it stores, and storing a score keeps its response bits. -/
theorem executedPredictRespondsWithItsToken : Obligations.ExecutedPredictRespondsWithItsToken := by
  unfold Obligations.ExecutedPredictRespondsWithItsToken
  intro s c a ha hf ⟨hrecord, _, _⟩ hp
  have hcode : s.faultCode = .none := hrecord.1 hf
  obtain ⟨taken, score, ht⟩ := exec_predict_captures c a hf hp
  refine ⟨_, ht, ?_, ?_, ?_⟩
  · simp [State.statusView, hf, hcode]
  · simp [State.captured, State.addressOperand_toNat ha]
  · rw [State.respond_responseWords, ← Response.encode_score_toInt]
    simp [hf, hcode, State.responseWords]

/-- Settles O23: the sum over the occupancy, and the loop that accumulates it. -/
theorem scoreIsTheSignedSum : Obligations.ScoreIsTheSignedSum := by
  unfold Obligations.ScoreIsTheSignedSum
  exact fun s c => ⟨s.score_eq_sum_range c, s.scoreLoop_eq_score c⟩

/-- Settles O27: the history after the two pushes, and their newest entry and bit. -/
theorem conditionalUpdateRecordsTheBranch : Obligations.ConditionalUpdateRecordsTheBranch := by
  unfold Obligations.ConditionalUpdateRecordsTheBranch
  intro s t taken target hf hp hc ht
  rw [exec_update_conditional taken target hf hp hc] at ht
  cases ht
  exact ⟨rfl, s.updateConditional_history taken, congrArg BitVec.toNat (s.chb.push_atAge_zero s.capAddr s.cfg.H_pos),
    ghrPush_bit_zero s.ghr taken s.cfg.H_pos⟩

/-- Settles O29: each visited cell is a target of the training, and no other address is. -/
theorem openGateTrainsExactlyTheVisitedCells : Obligations.OpenGateTrainsExactlyTheVisitedCells := by
  unfold Obligations.OpenGateTrainsExactlyTheVisitedCells
  intro s taken target hwf hf hp hc hgate
  have hopen := (s.trains_iff taken).2 hgate
  refine ⟨_, exec_update_conditional taken target hf hp hc, ?_, fun i hi => ?_, fun k hk => s.read_trained_other taken hk⟩
  · exact State.weight_trained hwf hopen (s.bias_mem_trainTargets taken)
  · refine (State.weight_trained hwf hopen (s.historyCell_mem_trainTargets taken hi)).trans ?_
    simp only [trainStep, beq_iff_eq]
    rfl

/-- Settles O31: both words decode to UPDATE with one flag. -/
theorem updateTargetHasNoEffect : Obligations.UpdateTargetHasNoEffect := by
  unfold Obligations.UpdateTargetHasNoEffect
  intro s w w' rest hop hfields
  have hop' : w'.toNat % 4 = 2 := by omega
  have hflag : requestF s.cfg w = requestF s.cfg w' := by
    rw [requestF_eq, requestF_eq, show w.toNat / 4 % 2 = w'.toNat / 4 % 2 by omega]
  rw [step_of_request rfl, step_of_request rfl, decode_update hop, decode_update hop', hflag]
  exact exec_update_target ..

/-- Settles O32: the two executed steps, each on the command its word encodes. -/
theorem unconditionalBranchLeavesTheStructures : Obligations.UnconditionalBranchLeavesTheStructures := by
  unfold Obligations.UnconditionalBranchLeavesTheStructures
  intro s a taken target rest ha htarget hf hp hpend
  have hpredict := (step_of_command (i := .predict false a) (Instr.wf_iff.2 ha) hpend).trans
    (exec_predict_unconditional a hf hp)
  have hupdate := (step_of_command (i := .update taken target) (Instr.wf_iff.2 htarget)
    (s := State.predictUnconditional { s with pending := .request (encode s.cfg (.update taken target)) :: rest }
      (s.addressOperand a)) rfl).trans (exec_update_unconditional taken target hf rfl rfl)
  refine ⟨_, runs_succ.2 ⟨_, hpredict, runs_succ.2 ⟨_, hupdate, runs_zero.2 rfl⟩⟩, rfl, rfl, ?_, ?_, rfl⟩
  · simp [State.captured, State.addressOperand_toNat ha]
  · simp [State.statusView, hf]

/-- Settles O38: the two executed rows of the table, and its two fault rows, which leave the phase. -/
theorem protocolTable : Obligations.ProtocolTable := by
  unfold Obligations.ProtocolTable
  intro s f a hf
  refine ⟨?_, ?_⟩ <;> cases hp : s.phase
  case refine_1.awaitingPredict =>
    obtain ⟨taken, score, ht⟩ := exec_predict_captures f a hf hp
    exact ⟨_, ht, fun _ => by simp [State.statusView, hf], nofun⟩
  case refine_1.awaitingUpdate => exact ⟨_, exec_predict_pending f a hf hp, nofun, fun _ => by simp [State.statusView, hp]⟩
  case refine_2.awaitingPredict => exact ⟨_, exec_update_stray f a hf hp, fun _ => by simp [State.statusView, hp], nofun⟩
  case refine_2.awaitingUpdate =>
    obtain ⟨t, ht, hstatus⟩ := exec_update_consumes f a hf hp
    exact ⟨t, ht, nofun, fun _ => hf ▸ hstatus⟩

/-- Settles O39: the induction on the stream of `alternates_iff_neverFaults`, one event a step. -/
theorem alternationIsExactlyFaultFreedom : Obligations.AlternationIsExactlyFaultFreedom := by
  unfold Obligations.AlternationIsExactlyFaultFreedom
  exact fun s => alternates_iff_neverFaults rfl

/-- Settles O18: the executed path of a conditional PREDICT, with the operand as it was given. -/
theorem conditionalPredictResult : Obligations.ConditionalPredictResult := by
  unfold Obligations.ConditionalPredictResult
  intro s a ha hf hp
  rw [exec_predict_conditional a hf hp, State.predictConditional, State.addressOperand_toNat ha, State.respond,
    State.capture_faulted, hf]
  rfl

/-- Settles O19: the executed path of an unconditional PREDICT. -/
theorem unconditionalPredictResult : Obligations.UnconditionalPredictResult := by
  unfold Obligations.UnconditionalPredictResult
  intro s a _ hf hp
  rw [exec_predict_unconditional a hf hp, State.predictUnconditional, State.respond, State.capture_faulted, hf]
  simp only [State.capture, BitVec.ofInt_ofNat]
  rfl

/-- Settles O21: the fault path of PREDICT. -/
theorem predictWhilePendingFaults : Obligations.PredictWhilePendingFaults := by
  unfold Obligations.PredictWhilePendingFaults
  intro s c a hf hp
  rw [exec_predict_pending c a hf hp, State.raiseFault, State.respond, hp]

/-- Settles O25: the executed path of UPDATE after an unconditional branch. -/
theorem unconditionalUpdateResult : Obligations.UnconditionalUpdateResult := by
  unfold Obligations.UnconditionalUpdateResult
  intro s taken target _ hf hp hc
  rw [exec_update_unconditional taken target hf hp hc, State.updateUnconditional, State.respond, hf]

/-- Settles O30: the fault path of UPDATE. -/
theorem updateWithoutPredictFaults : Obligations.UpdateWithoutPredictFaults := by
  unfold Obligations.UpdateWithoutPredictFaults
  intro s taken target hf hp
  rw [exec_update_stray taken target hf hp, State.raiseFault, State.respond, hp]

end Sys2Proof.Machine
end

section
/-! PROOFS. Exceptions (60_exceptions.md): what a faulted block makes of a command, of a step and of a run, one step of one block
among several, and which parameters make a block. -/

namespace Sys2Proof

/-! ### Configurations -/

/-- R140: the four integers make a block exactly when each is positive. -/
theorem Config.build?_eq_none_iff {n m h w : Int} : Config.build? n m h w = none ↔ n ≤ 0 ∨ m ≤ 0 ∨ h ≤ 0 ∨ w ≤ 0 := by
  rw [Config.build?, dite_eq_right_iff]
  simp only [reduceCtorEq, imp_false]
  omega

/-- R140: a configuration has the four integers it is built from as its parameters. -/
theorem Config.parameters_of_build? {n m h w : Int} {cfg : Config} (hcfg : Config.build? n m h w = some cfg) :
    (cfg.N : Int) = n ∧ (cfg.M : Int) = m ∧ (cfg.H : Int) = h ∧ (cfg.addrW : Int) = w := by
  rw [Config.build?, Option.dite_none_right_eq_some] at hcfg
  obtain ⟨⟨hn, hm, hh, hw⟩, hsome⟩ := hcfg
  cases hsome
  refine ⟨?_, ?_, ?_, ?_⟩ <;> exact Int.toNat_of_nonneg (by omega)

namespace Machine

/-! ### A faulted block -/

/-- R130: the three kinds of step while FAULTED = 1, where the presented command is refused whatever it is. -/
theorem step_cases_of_faulted {s t : State} (hf : s.faulted = true) (h : step s = .next t) :
    (s.pending = [] ∧ t = s) ∨
    (∃ rest, s.pending = .rst :: rest ∧ t = State.applyReset { s with pending := rest }) ∨
    ∃ w rest, s.pending = .request w :: rest ∧ t = State.refuse { s with pending := rest } := by
  rcases step_cases h with hidle | hrst | ⟨w, rest, hpend, -⟩
  · exact .inl hidle
  · exact .inr (.inl hrst)
  · rw [step_of_request hpend, exec_refused (s := { s with pending := rest }) _ hf] at h
    cases h
    exact .inr (.inr ⟨w, rest, hpend, rfl⟩)

/-- R130: a step of a faulted block clears FAULTED exactly when it is a step on `rst`. -/
theorem faulted_cleared_iff_rst {s t : State} (hf : s.faulted = true) (h : step s = .next t) :
    t.faulted = false ↔ ∃ rest, s.pending = PortEvent.rst :: rest := by
  rcases step_cases_of_faulted hf h with ⟨hpend, rfl⟩ | ⟨rest, hpend, rfl⟩ | ⟨w, rest, hpend, rfl⟩
  · simp [hf, hpend]
  · simp [hpend]
  · simp [hf, hpend]

/-- R137, R138: the first code and every structure outlast any run without a reset, by induction on its steps. -/
theorem faulted_run_keeps_state {n : Nat} {s t : State} (hf : s.faulted = true) (hrst : ∀ e ∈ s.pending, e ≠ PortEvent.rst)
    (ht : runs n s t) :
    t.statusView = s.statusView ∧ t.wt = s.wt ∧ t.historyBits = s.historyBits ∧ t.captured = s.captured := by
  induction n generalizing s with
  | zero =>
    rw [← runs_zero.1 ht]
    exact ⟨rfl, rfl, rfl, rfl⟩
  | succ n ih =>
    obtain ⟨u, hu, hrun⟩ := runs_succ.1 ht
    rcases step_cases_of_faulted hf hu with ⟨-, rfl⟩ | ⟨rest, hpend, -⟩ | ⟨w, rest, hpend, rfl⟩
    · exact ih hf hrst hrun
    · exact absurd rfl (hrst .rst (by simp [hpend]))
    · have hrest : ∀ e ∈ rest, e ≠ PortEvent.rst := fun e he => hrst e (by simp [hpend, he])
      exact ih (s := State.refuse { s with pending := rest }) hf hrest hrun

/-! ### Several blocks side by side -/

/-- R156: the state one step answers (`step_eq_next`: it always answers one). -/
def State.next (s : State) : State :=
  match step s with
  | .next t => t
  | .fault _ | .refused _ => s

theorem step_eq_next (s : State) : step s = .next s.next := by
  obtain ⟨t, ht, -⟩ := everyStepAnswers s
  simp only [State.next, ht]

/-- R143: a step of one block is the step it makes alone, at its place in the list. -/
theorem stepInstance_eq_modify (k : Nat) (sys : List State) : stepInstance k sys = sys.modify k State.next := by
  rw [List.modify_eq_set_getElem?, stepInstance]
  cases sys[k]? with
  | none => rfl
  | some s => simp [step_eq_next s]

/-! ### The obligations -/

/-- Settles O35: the induction on the run of `faulted_run_keeps_state`, every step of which is idle or a refusal. -/
theorem onlyResetClearsAFault : Obligations.OnlyResetClearsAFault := by
  unfold Obligations.OnlyResetClearsAFault
  exact fun _ _ _ => faulted_run_keeps_state

/-- Settles O53: a step of one block modifies the list at its place, and modifications at two places commute. -/
theorem instancesAreIndependent : Obligations.InstancesAreIndependent := by
  unfold Obligations.InstancesAreIndependent
  intro sys j k hjk
  simp only [stepInstance_eq_modify]
  refine ⟨?_, fun s hs => ⟨s.next, step_eq_next s, ?_⟩, ?_⟩
  · exact List.getElem?_modify_ne _ _ hjk.symm
  · simp [hs]
  · exact List.modify_modify_ne _ _ _ hjk.symm

/-- Settles O9: the condition under which `build?` answers, and the parameters of what it answers. -/
theorem nonPositiveConfigurationIsRejected : Obligations.NonPositiveConfigurationIsRejected := by
  unfold Obligations.NonPositiveConfigurationIsRejected
  intro n m h w
  refine ⟨Config.build?_eq_none_iff, fun cfg hcfg => ?_⟩
  obtain ⟨hN, hM, hH, hW⟩ := Config.parameters_of_build? hcfg
  exact ⟨hN, hM, hH, hW, cfg.N_pos, cfg.M_pos, cfg.H_pos, cfg.addrW_pos⟩

/-- Settles O14: the idle step. -/
theorem nothingPresentedNothingChanges : Obligations.NothingPresentedNothingChanges := by
  unfold Obligations.NothingPresentedNothingChanges
  exact fun _ => step_of_idle

/-- Settles O33: the fault entry of either reserved opcode. -/
theorem reservedOpcodeFaults : Obligations.ReservedOpcodeFaults := by
  unfold Obligations.ReservedOpcodeFaults
  exact fun s f a hf => ⟨exec_reserved00 f a hf, exec_reserved11 f a hf⟩

/-- Settles O34: the refusal of every command, and the three kinds of step of a faulted block. -/
theorem faultedBlockRefusesEveryCommand : Obligations.FaultedBlockRefusesEveryCommand := by
  unfold Obligations.FaultedBlockRefusesEveryCommand
  refine ⟨fun s i hf => ?_, fun s t => faulted_cleared_iff_rst⟩
  rw [exec_refused i hf, State.refuse, State.respond, hf]

end Machine

end Sys2Proof
end

section
/-! PROOFS. Reset and the first command after it (70_reset_and_hazards.md): the empty history and the empty table, and the score they
give. -/

namespace Sys2Proof.Machine

/-! ### The reset state -/

/-- R32, R150: in an empty table every cell weighs 0. -/
theorem Memory.weight_nil (cfg : Config) (x : Cell) : Memory.weight cfg [] x = 0 := rfl

/-- R105: with no history the score is the bias weight alone. -/
theorem State.score_of_occupancy_eq_zero {s : State} (h : s.chb.occupancy = 0) (c : Nat) :
    s.score c = s.wt.weight s.cfg (biasCell c) := by
  rw [State.score_eq_sum_range, h, Finset.sum_range_zero, Int.add_zero]

/-- R105, R152: every context scores 0 after reset, since the history and the table are empty. -/
theorem State.score_resetOf (cfg : Config) (c : Nat) : (State.resetOf cfg).score c = 0 := by
  have hhistory : (State.resetOf cfg).chb.occupancy = 0 := rfl
  exact (State.score_of_occupancy_eq_zero hhistory c).trans (Memory.weight_nil cfg (biasCell c))

/-! ### The obligations -/

/-- Settles O13: the step on `rst` leaves the reset state, read element by element. -/
theorem resetRestoresEveryResetValue : Obligations.ResetRestoresEveryResetValue := by
  unfold Obligations.ResetRestoresEveryResetValue
  intro s rest hpend
  refine ⟨_, step_of_rst hpend, rfl, rfl, ?captured, fun k => ?entry, rfl, ?ghr, Memory.weight_nil _⟩
  case captured => simp [State.captured]
  case entry => exact Vector.getElem_replicate ..
  case ghr => simp

/-- Settles O43: the executed path of PREDICT with the score of the reset state, and the fault path of UPDATE. -/
theorem firstCommandAfterReset : Obligations.FirstCommandAfterReset := by
  unfold Obligations.FirstCommandAfterReset
  intro cfg a ha
  refine ⟨⟨_, exec_predict_conditional a rfl rfl, ?captured, rfl, ?answer⟩,
    fun taken => ⟨_, exec_update_stray taken a rfl rfl, rfl, ?fault⟩⟩
  case captured =>
    have haddr : ((State.resetOf cfg).addressOperand a).toNat = a := State.addressOperand_toNat ha
    simpa [State.captured, State.predictConditional, State.score_resetOf, takenOf] using haddr
  case answer =>
    rw [State.predictConditional_responseWords, State.score_resetOf, Response.encode_toNat]
    simp [State.responseWords, State.resetOf, takenOf, FaultCode.bits, Phase.bit]
  case fault =>
    rw [State.raiseFault_responseWords, Response.encode_toNat]
    simp [State.responseWords, State.resetOf, FaultCode.bits, Phase.bit]

end Sys2Proof.Machine
end
